-- ==== Sys2Proof/Word.lean ====
section
/-! DEFINITION. The element types of the block and their widths (spec 20_memory.md R44, 30_encoding.md R55, R62,
R63, R64). There is no wider word and no memory word: data moves as lists of elements. -/

namespace Sys2Proof

/-- An int32 element: a 32-bit two's-complement pattern (R64). -/
abbrev IntWord := BitVec 32

/-- A sextet element: 6 bits, every value legal (R55). -/
abbrev Sextet := BitVec 6

/-- A character element: a `CHAR_W` = 8-bit code (R14, R62). -/
abbrev CharCode := BitVec 8

/-- A framed-sextet element, `LAST :: sextet` (R63). -/
abbrev FramedSextet := BitVec 7

/-- The operation select field `OP`, bits [2:0] (R16, R54). -/
abbrev OpCode := BitVec 3

/-- The 2-bit `RSP_STATUS` (R30). -/
abbrev StatusCode := BitVec 2

/-- The element types a port list can have (R44). -/
inductive ElemType where
  | int
  | char
  | sextet
  | framed
deriving DecidableEq, Repr

/-- One element on a port: an indivisible value of its type's width (R42, R44). -/
inductive Element where
  | int (v : IntWord)
  | char (c : CharCode)
  | sextet (x : Sextet)
  | framed (f : FramedSextet)
deriving DecidableEq, Repr

/-- The type of an element. -/
def Element.type : Element → ElemType
  | .int _ => .int
  | .char _ => .char
  | .sextet _ => .sextet
  | .framed _ => .framed

end Sys2Proof
end

