-- ==== Sys2Proof/Syntax.lean ====
section
/-! DEFINITION. The requests an operation code selects: one constructor per row of spec/opcode_table.json, carrying the
operand list `IN` (spec 30_encoding.md R54). Code 7 is reserved and has no constructor (R66). -/

namespace Sys2Proof

/-- A request `(OP, IN)` with `OP` one of the seven operations (R54). -/
inductive Instr where
  /-- ENCODE, OP 0 (R95). -/
  | encode (xs : List IntWord)
  /-- DECODE, OP 1 (R96). -/
  | decode (cs : List CharCode)
  /-- VLQ_ENCODE, OP 2 (R69). -/
  | vlqEncode (xs : List IntWord)
  /-- VLQ_DECODE, OP 3 (R87). -/
  | vlqDecode (ss : List Sextet)
  /-- B64_ENCODE, OP 4 (R77). -/
  | base64Encode (ss : List Sextet)
  /-- B64_DECODE, OP 5 (R78). -/
  | base64Decode (cs : List CharCode)
  /-- SPLIT, OP 6 (R82). -/
  | split (ss : List Sextet)
deriving DecidableEq, Repr

end Sys2Proof
end

