-- ==== Sys2Proof/WellFormed.lean ====
section
/-! DEFINITION. The operand shapes the source's signatures allow (spec 30_encoding.md R54): VLQ_ENCODE takes exactly one
int32, VLQ_DECODE a non-empty list. A request of another shape can be submitted; the codec refuses it (10_state.md
R33 (b), (c), in Machine/Ops.lean). -/

namespace Sys2Proof

/-- The request has a shape its operation's signature allows (R54's table). -/
def Instr.wf : Instr → Bool
  | .encode _ => true
  | .decode _ => true
  | .vlqEncode xs => xs.length == 1
  | .vlqDecode ss => !ss.isEmpty
  | .base64Encode _ => true
  | .base64Decode _ => true
  | .split _ => true

end Sys2Proof
end

