-- ==== Sys2Proof/Decode.lean ====
section
/-! DEFINITION. Decoding the request registers `(REQ_OP, REQ_IN)` into an instruction, the encoder beside it, and the
host's table words (spec 30_encoding.md R54, R66). Total: every pair of a 3-bit code and a list of elements is decoded
or rejected by name. -/

namespace Sys2Proof

/-- Why a pair `(OP, IN)` is no request. -/
inductive DecodeReject where
  /-- `OP = 7` selects no operation (R66). -/
  | reservedOp
  /-- An element of `IN` is not of `OP`'s input type (R35, R54). -/
  | elementType
deriving DecidableEq, Repr

/-- The input element type each operation code selects (R54's table); code 7 has none. -/
def inputType (op : OpCode) : Option ElemType :=
  match op.toNat with
  | 0 => some .int
  | 1 => some .char
  | 2 => some .int
  | 3 => some .sextet
  | 4 => some .sextet
  | 5 => some .char
  | 6 => some .sextet
  | _ => none

def Element.int? : Element → Option IntWord
  | .int v => some v
  | _ => none

def Element.char? : Element → Option CharCode
  | .char c => some c
  | _ => none

def Element.sextet? : Element → Option Sextet
  | .sextet x => some x
  | _ => none

/-- All elements of a list, read by `f`; none if one of them is of another type. -/
def collect {α : Type} (f : Element → Option α) : List Element → Option (List α)
  | [] => some []
  | e :: es =>
    match f e, collect f es with
    | some x, some xs => some (x :: xs)
    | _, _ => none

/-- An instruction built on a list that was read, or the rejection of its element types. -/
def onTyped {α : Type} (mk : List α → Instr) : Option (List α) → Except DecodeReject Instr
  | some xs => .ok (mk xs)
  | none => .error .elementType

/-- The decoder: `OP` selects the operation, `IN` must be a list of its input type (R54, R66). -/
def decode (op : OpCode) (es : List Element) : Except DecodeReject Instr :=
  match op.toNat with
  | 0 => onTyped .encode (collect Element.int? es)
  | 1 => onTyped .decode (collect Element.char? es)
  | 2 => onTyped .vlqEncode (collect Element.int? es)
  | 3 => onTyped .vlqDecode (collect Element.sextet? es)
  | 4 => onTyped .base64Encode (collect Element.sextet? es)
  | 5 => onTyped .base64Decode (collect Element.char? es)
  | 6 => onTyped .split (collect Element.sextet? es)
  | _ => .error .reservedOp

/-- The encoder: the `(OP, IN)` of an instruction, from R54's table. -/
def encode : Instr → OpCode × List Element
  | .encode xs => (0b000#3, xs.map .int)
  | .decode cs => (0b001#3, cs.map .char)
  | .vlqEncode xs => (0b010#3, xs.map .int)
  | .vlqDecode ss => (0b011#3, ss.map .sextet)
  | .base64Encode ss => (0b100#3, ss.map .sextet)
  | .base64Decode cs => (0b101#3, cs.map .char)
  | .split ss => (0b110#3, ss.map .sextet)

/-- The operation code of a table word: the field is bits [2:0], and a word with a bit above it is read as the reserved
code (DESIGN CHOICE, notes/assumptions/7.md). -/
def tableOp (w : Nat) : OpCode :=
  if w < 8 then BitVec.ofNat 3 w else 0b111#3

/-- The operand a table word stands with: one element of the operation's input type, all bits zero
(DESIGN CHOICE, notes/assumptions/7.md). -/
def tableOperand (op : OpCode) : List Element :=
  match inputType op with
  | some .int => [.int 0]
  | some .char => [.char 0]
  | some .sextet => [.sextet 0]
  | _ => []

/-- The instruction the decoder reads from a row of spec/opcode_table.json. The row's bits are the 3-bit `OP` field, so
the number of bits it is given in whole bytes does not matter. -/
def decodeTableWord (_nbits w : Nat) : Option Instr :=
  match decode (tableOp w) (tableOperand (tableOp w)) with
  | .ok i => some i
  | .error _ => none

end Sys2Proof
end

