-- ==== Sys2Proof/Config.lean ====
section
/-! DEFINITION. What an implementation fixes: the open parameters `MAX_IN_LEN` and `MAX_OUT_LEN` (spec 00_scope.md R15,
92_eei_decisions.md D14). They are plain data carried in State, so that every statement over all states is a statement
over every value of them (notes/assumptions/1.md). -/

namespace Sys2Proof

/-- The length bounds of one block; `none` is unbounded (D14: "natural numbers, or unbounded"). -/
structure Config where
  /-- `MAX_IN_LEN`: the greatest number of input elements of a request (R15). -/
  maxInLen : Option Nat
  /-- `MAX_OUT_LEN`: the greatest number of output elements of a response (R15). -/
  maxOutLen : Option Nat
deriving DecidableEq, Repr

end Sys2Proof
end

