-- ==== Sys2Proof/Machine/Roms.lean ====
section
/-! DEFINITION. The two ROMs: the alphabet table of spec 30_encoding.md R61, the reverse lookup of 10_state.md R27, and the
reads of both. Every index is in range (R38), so no read can fail. -/

namespace Sys2Proof.Machine

open Sys2Proof

/-- One reverse-lookup entry: `(valid : 1 bit, index : 6 bits)` (R27). -/
structure RlutEntry where
  valid : Bool
  index : Sextet
deriving DecidableEq, Repr

/-- `ALPHA`: 64 character codes (R26). -/
abbrev AlphaRom := Vector CharCode 64

/-- `RLUT`: an entry for each of the 256 character codes (R27). -/
abbrev RlutRom := Vector RlutEntry 256

/-- Indices 0 to 25: `A` to `Z` (R61). -/
def upperCodes : List CharCode :=
  [0x41, 0x42, 0x43, 0x44, 0x45, 0x46, 0x47, 0x48, 0x49, 0x4A, 0x4B, 0x4C, 0x4D,
   0x4E, 0x4F, 0x50, 0x51, 0x52, 0x53, 0x54, 0x55, 0x56, 0x57, 0x58, 0x59, 0x5A]

/-- Indices 26 to 51: `a` to `z` (R61). -/
def lowerCodes : List CharCode :=
  [0x61, 0x62, 0x63, 0x64, 0x65, 0x66, 0x67, 0x68, 0x69, 0x6A, 0x6B, 0x6C, 0x6D,
   0x6E, 0x6F, 0x70, 0x71, 0x72, 0x73, 0x74, 0x75, 0x76, 0x77, 0x78, 0x79, 0x7A]

/-- Indices 52 to 61: `0` to `9` (R61). -/
def digitCodes : List CharCode :=
  [0x30, 0x31, 0x32, 0x33, 0x34, 0x35, 0x36, 0x37, 0x38, 0x39]

/-- Indices 62 and 63: `+` and `/` (R61). -/
def symbolCodes : List CharCode :=
  [0x2B, 0x2F]

/-- The alphabet table of R61, the contents of `ALPHA`. -/
def alphabet : AlphaRom :=
  ⟨(upperCodes ++ lowerCodes ++ digitCodes ++ symbolCodes).toArray, by decide⟩

/-- The entry of code `c` over the table from index `i` on: valid with the index where `c` stands, `(0, 0)` otherwise (R27). -/
def entryFrom (c : CharCode) : Nat → List CharCode → RlutEntry
  | _, [] => ⟨false, 0⟩
  | i, a :: as => if a = c then ⟨true, BitVec.ofNat 6 i⟩ else entryFrom c (i + 1) as

/-- The reverse lookup of an alphabet table (R27). -/
def rlutOf (a : AlphaRom) : RlutRom :=
  ⟨((List.range 256).map fun c => entryFrom (BitVec.ofNat 8 c) 0 a.toList).toArray, by simp⟩

/-- `ALPHA[x]` (R21, R26). -/
def readAlpha (rom : AlphaRom) (x : Sextet) : CharCode :=
  rom[x.toNat]'x.isLt

/-- `RLUT[c]` (R21, R27). -/
def readRlut (rom : RlutRom) (c : CharCode) : RlutEntry :=
  rom[c.toNat]'c.isLt

end Sys2Proof.Machine
end

