-- ==== Sys2Proof/Machine/State.lean ====
section
/-! DEFINITION. The state of one block and of its host, the reasons a step can stop, and the state after reset
(spec 10_state.md §2 and §6, 70_reset_and_hazards.md R119). A register that the spec says holds no value is `none`: that is
the spec's own state of it (R28), not a missing reset value. -/

namespace Sys2Proof.Machine

open Sys2Proof

/-- The handshake state (R32). -/
inductive Phase where
  /-- No request has been submitted since reset. -/
  | idle
  /-- A request is held and not yet performed. -/
  | pending
  /-- The response registers hold the response to the request in the request registers. -/
  | done
deriving DecidableEq, Repr

/-- The two error kinds, each with its position (R101, R103). -/
inductive CodecError where
  | invalidCharacter (pos : Nat)
  | unterminatedVlq (pos : Nat)
deriving DecidableEq, Repr

/-- What `read()` returns: `(RSP_STATUS, RSP_ERRPOS, RSP_OUT)` (R30, R36). -/
structure Response where
  status : StatusCode
  errPos : Option Nat
  out : List Element
deriving DecidableEq, Repr

/-- What a host can submit: an operation with a list of its input type, or the reserved code, whose input type is
"none" in R54's table and which the model lets carry any list (DESIGN CHOICE, notes/assumptions/8.md). -/
inductive Request where
  | operation (i : Instr)
  | reserved (es : List Element)
deriving DecidableEq, Repr

/-- One entry of the host's future (notes/assumptions/5.md). `codec` gives the codec its turn, `wait` lets time pass. -/
inductive Turn where
  | submit (r : Request)
  | read
  | reset
  | codec
  | wait
deriving DecidableEq, Repr

/-- The reasons the machine stops with a fault. -/
inductive Fault where
  /-- A `read()` in phase Idle "reads registers nothing has written, and faults" (R36; R30, R119, V5, D16). Raised by the
  host's read turn. Safe: the spec's own fault. -/
  | readBeforeResponse
  /-- A perform step with no value in `REQ_OP` or `REQ_IN` (R28: reading an absent value faults). Raised by the codec's
  turn in phase Pending; no run from reset reaches it. Safe. -/
  | requestAbsent
  /-- A `read()` in phase Done with no value in `RSP_STATUS` or `RSP_OUT` (R28). Raised by the host's read turn; no run
  from reset reaches it. Safe. -/
  | responseAbsent
deriving DecidableEq, Repr

/-- The reasons the model gives a step no meaning. -/
inductive Refusal where
  /-- An instruction with no meaning yet; raised by `exec`'s arms only. Safe. -/
  | notModelled (mnemonic : String)
  /-- The request registers hold an element of another type than `REQ_OP` selects, which R28 and R35 exclude. Raised by
  the codec's turn; no run from reset reaches it. Safe. -/
  | operandType
deriving DecidableEq, Repr

/-- Everything the spec gives the block, the bounds its implementation fixes, and the host beside it. -/
structure State where
  /-- `MAX_IN_LEN` and `MAX_OUT_LEN` of this block (R15); no step changes them. -/
  cfg : Config
  /-- `ALPHA` (R26). -/
  alpha : AlphaRom
  /-- `RLUT` (R27). -/
  rlut : RlutRom
  /-- `phase` (R32). -/
  phase : Phase
  /-- `REQ_OP` (R28). -/
  reqOp : Option OpCode
  /-- `REQ_IN` (R28). -/
  reqIn : Option (List Element)
  /-- `RSP_STATUS` (R30). -/
  rspStatus : Option StatusCode
  /-- `RSP_ERRPOS` (R30, R103). -/
  rspErrPos : Option Nat
  /-- `RSP_OUT` (R30). -/
  rspOut : Option (List Element)
  /-- The refusal mark (R33, R37). -/
  refusalMark : Bool
  /-- The host's future turns, oldest first: the model's own field (notes/assumptions/5.md). -/
  schedule : List Turn
  /-- What the host's reads have returned, oldest first: the model's own field (notes/assumptions/10.md). -/
  reads : List Response
  /-- The `(request, response)` pairs of R127, oldest first: the model's own field (notes/assumptions/10.md). -/
  observation : List (Instr × Response)
deriving DecidableEq, Repr

/-- The block right after reset (R118, R119). The bounds, the empty schedule and the empty records are the model's choice
(notes/assumptions/1.md, 5.md, 10.md). -/
def State.reset : State where
  cfg := { maxInLen := none, maxOutLen := none }
  alpha := alphabet
  rlut := rlutOf alphabet
  phase := .idle
  reqOp := none
  reqIn := none
  rspStatus := none
  rspErrPos := none
  rspOut := none
  refusalMark := false
  schedule := []
  reads := []
  observation := []

end Sys2Proof.Machine
end

