-- ==== Sys2Proof/Machine/Ops.lean ====
section
/-! DEFINITION. The shared operations of a perform step (spec 10_state.md R33, R37): refusing a request, writing a response in
one transition, and raising an error (60_exceptions.md R102). Raising an error is the whole of this hardware's exception
entry: no state is saved, no mode changes and nothing returns from it (R108, R109). -/

namespace Sys2Proof.Machine

open Sys2Proof

/-- The status code of an error kind (R101). -/
def errorCode : CodecError → StatusCode
  | .invalidCharacter _ => 1#2
  | .unterminatedVlq _ => 2#2

/-- The position an error reports (R103). -/
def errorPos : CodecError → Nat
  | .invalidCharacter p => p
  | .unterminatedVlq p => p

/-- The response of a raised error: its code, its position and no output (R102, R105). -/
def raise (e : CodecError) : Response :=
  { status := errorCode e, errPos := some (errorPos e), out := [] }

/-- The response of a computation that did not fail: `OK`, no error position (R30). -/
def okResponse (out : List Element) : Response :=
  { status := 0#2, errPos := none, out := out }

/-- A length is within an open bound (R15). -/
def withinBound (bound : Option Nat) (n : Nat) : Bool :=
  match bound with
  | none => true
  | some b => n ≤ b

/-- The shapes the codec refuses (R33 (b), (c)). -/
def refusedShape : Instr → Bool
  | .encode _ => false
  | .decode _ => false
  | .vlqEncode xs => xs.length != 1
  | .vlqDecode ss => ss.length == 0
  | .base64Encode _ => false
  | .base64Decode _ => false
  | .split _ => false

/-- The codec refuses request `i`, whose response would be `r` (R33 (b) to (e)). -/
def refuses (cfg : Config) (i : Instr) (r : Response) : Bool :=
  refusedShape i
    || !withinBound cfg.maxInLen (encode i).2.length
    || !withinBound cfg.maxOutLen r.out.length

/-- A refused request: the mark is set and phase stays Pending (R37). -/
def State.markRefused (s : State) : State :=
  { s with refusalMark := true }

/-- The response registers, `phase` and the observation after a performed request, in one transition (R37, R102, R127). -/
def State.respond (i : Instr) (r : Response) (s : State) : State :=
  { s with
    phase := .done
    rspStatus := some r.status
    rspErrPos := r.errPos
    rspOut := some r.out
    observation := s.observation ++ [(i, r)] }

/-- The perform step of request `i` with response `r` (R37): refusal comes before every response (R106 (1)). -/
def conclude (i : Instr) (r : Response) (s : State) : Host.Outcome State Fault Refusal :=
  if refuses s.cfg i r then .next s.markRefused else .next (s.respond i r)

end Sys2Proof.Machine
end

