-- ==== Sys2Proof/Machine/Base64Mapper.lean ====
section
/-! DEFINITION. The base64 mapper, B64_ENCODE and B64_DECODE (spec 41_base64_map.md R77, R78, R79). -/

namespace Sys2Proof.Machine

open Sys2Proof

/-- `b64_map`: one `ALPHA` read per sextet, in order (R77). -/
def b64Map (rom : AlphaRom) : List Sextet → List CharCode
  | [] => []
  | x :: xs => readAlpha rom x :: b64Map rom xs

/-- `b64_unmap` from index `i` on: one `RLUT` read per character, ended by the first invalid one (R78, R79). -/
def b64UnmapFrom (rom : RlutRom) : Nat → List CharCode → Except CodecError (List Sextet)
  | _, [] => .ok []
  | i, c :: cs =>
    if (readRlut rom c).valid then
      match b64UnmapFrom rom (i + 1) cs with
      | .ok xs => .ok ((readRlut rom c).index :: xs)
      | .error e => .error e
    else .error (.invalidCharacter i)

/-- `b64_unmap` (R78). -/
def b64Unmap (rom : RlutRom) (cs : List CharCode) : Except CodecError (List Sextet) :=
  b64UnmapFrom rom 0 cs

/-- The response of B64_ENCODE (R77). -/
def base64EncodeResponse (rom : AlphaRom) (ss : List Sextet) : Response :=
  okResponse ((b64Map rom ss).map .char)

/-- The response of B64_DECODE (R78). -/
def base64DecodeResponse (rom : RlutRom) (cs : List CharCode) : Response :=
  match b64Unmap rom cs with
  | .ok xs => okResponse (xs.map .sextet)
  | .error e => raise e

/-- B64_ENCODE, OP 4 (R77). -/
def execBase64Encode (ss : List Sextet) (s : State) : Host.Outcome State Fault Refusal :=
  conclude (.base64Encode ss) (base64EncodeResponse s.alpha ss) s

/-- B64_DECODE, OP 5 (R78). -/
def execBase64Decode (cs : List CharCode) (s : State) : Host.Outcome State Fault Refusal :=
  conclude (.base64Decode cs) (base64DecodeResponse s.rlut cs) s

end Sys2Proof.Machine
end

