-- ==== Sys2Proof/Machine/Flags.lean ====
section
/-! DEFINITION. The flags of this hardware are fields of sextets, not state (spec 10_state.md R25): the continuation flag, the
sign flag, and the payload fields beside them (30_encoding.md R55, R56, R57). -/

namespace Sys2Proof.Machine

open Sys2Proof

/-- The continuation flag `C`, bit 5: more sextets follow (R12, R55). -/
def contFlag (x : Sextet) : Bool :=
  x.getLsbD 5

/-- The sign flag `S` of a head sextet, bit 0 (R56). -/
def signFlag (x : Sextet) : Bool :=
  x.getLsbD 0

/-- The payload `P` of a head sextet, bits 4:1 (R56). -/
def headPayload (x : Sextet) : BitVec 4 :=
  x.extractLsb' 1 4

/-- The payload `P` of a tail sextet, bits 4:0 (R57). -/
def tailPayload (x : Sextet) : BitVec 5 :=
  x.extractLsb' 0 5

/-- Setting the continuation flag, `S | 32`, where magnitude remains (R73). -/
def withContinuation (more : Bool) (x : Sextet) : Sextet :=
  if more then x ||| 32#6 else x

end Sys2Proof.Machine
end

