-- ==== Sys2Proof/Machine/Operands.lean ====
section
/-! DEFINITION. Operand and result forms: the output types of the operations (spec 30_encoding.md R54), the request a host
submits, the framed sextet and the serialisation of chunks (R63, 42_framer.md R82), and the negation of 00_scope.md R19. -/

namespace Sys2Proof.Machine

open Sys2Proof

/-- The output element type each operation code selects (R54's table, R63 for SPLIT); code 7 has none. -/
def outputType (op : OpCode) : Option ElemType :=
  match op.toNat with
  | 0 => some .char
  | 1 => some .int
  | 2 => some .sextet
  | 3 => some .int
  | 4 => some .char
  | 5 => some .sextet
  | 6 => some .framed
  | _ => none

/-- The `OP` a submission writes to `REQ_OP` (R35, R54). -/
def requestOp : Request → OpCode
  | .operation i => (encode i).1
  | .reserved _ => 0b111#3

/-- The list a submission writes to `REQ_IN` (R35). -/
def requestIn : Request → List Element
  | .operation i => (encode i).2
  | .reserved es => es

/-- `neg32(v) = (2^32 - v) mod 2^32` (R19). -/
def neg32 (v : IntWord) : IntWord :=
  -v

/-- The framed element `LAST :: sextet` (R63). -/
def frameElement (last : Bool) (x : Sextet) : FramedSextet :=
  BitVec.ofBool last ++ x

/-- One chunk's framed elements: `LAST = 1` on its final sextet only (R63). -/
def serialiseChunk : List Sextet → List FramedSextet
  | [] => []
  | [x] => [frameElement true x]
  | x :: y :: ys => frameElement false x :: serialiseChunk (y :: ys)

/-- The framed elements of a chunk list, concatenated in order (R63, R82). -/
def serialise : List (List Sextet) → List FramedSextet
  | [] => []
  | c :: cs => serialiseChunk c ++ serialise cs

end Sys2Proof.Machine
end

