-- ==== Sys2Proof/Machine/Framer.lean ====
section
/-! DEFINITION. The stream framer and SPLIT (spec 42_framer.md R82, R83). The arguments of `frameFrom` are `out`, the working
registers `CUR` and `i` of 10_state.md R31, and `start`. -/

namespace Sys2Proof.Machine

open Sys2Proof

/-- The scan of R82 from index `i` on, and the end-of-input check of R83. -/
def frameFrom (out : List (List Sextet)) (cur : List Sextet) (start i : Nat) :
    List Sextet → Except CodecError (List (List Sextet))
  | [] => if cur.isEmpty then .ok out else .error (.unterminatedVlq start)
  | x :: xs =>
    if contFlag x then frameFrom out (cur ++ [x]) start (i + 1) xs
    else frameFrom (out ++ [cur ++ [x]]) [] (i + 1) (i + 1) xs

/-- `frame` (R82). -/
def frame (ss : List Sextet) : Except CodecError (List (List Sextet)) :=
  frameFrom [] [] 0 0 ss

/-- The response of SPLIT (R82). -/
def splitResponse (ss : List Sextet) : Response :=
  match frame ss with
  | .ok chunks => okResponse ((serialise chunks).map .framed)
  | .error e => raise e

/-- SPLIT, OP 6 (R82). -/
def execSplit (ss : List Sextet) (s : State) : Host.Outcome State Fault Refusal :=
  conclude (.split ss) (splitResponse ss) s

end Sys2Proof.Machine
end

