-- ==== Sys2Proof/Machine/VlqDecoder.lean ====
section
/-! DEFINITION. The VLQ decoder and VLQ_DECODE (spec 43_vlq_decode.md R87 to R90). The value of `tailAccumulator` is the
working register `ACC` of 10_state.md R31 after the tails. Continuation flags are not read (R90). -/

namespace Sys2Proof.Machine

open Sys2Proof

/-- `ACC` after the reverse walk over the sextets behind the head, the last sextet first: `(ACC << 5) | v[k][4:0]`, in 32
bits (R87, R88). -/
def tailAccumulator : List Sextet → IntWord
  | [] => 0
  | x :: xs => (tailAccumulator xs <<< 5) ||| (tailPayload x).setWidth 32

/-- `ACC` after the head, `(ACC << 4) | v[0][4:1]` (R87). -/
def headAccumulator (head : Sextet) (tails : List Sextet) : IntWord :=
  (tailAccumulator tails <<< 4) ||| (headPayload head).setWidth 32

/-- `vlq_decode` (R87, R89). It requires a non-empty list: R33 (c) refuses the empty one, whose value here is never
delivered. -/
def vlqDecode : List Sextet → IntWord
  | [] => 0
  | head :: tails =>
    if signFlag head then neg32 (headAccumulator head tails) else headAccumulator head tails

/-- The response of VLQ_DECODE (R87). -/
def vlqDecodeResponse (ss : List Sextet) : Response :=
  okResponse [.int (vlqDecode ss)]

/-- VLQ_DECODE, OP 3 (R87). -/
def execVlqDecode (ss : List Sextet) (s : State) : Host.Outcome State Fault Refusal :=
  conclude (.vlqDecode ss) (vlqDecodeResponse ss) s

end Sys2Proof.Machine
end

