-- ==== Sys2Proof/Machine/VlqEncoder.lean ====
section
/-! DEFINITION. The VLQ encoder and VLQ_ENCODE (spec 40_vlq_encode.md R69 to R73). The arguments `mag` and `sgn` are the
working registers `MAG` and `SGN` of 10_state.md R31. -/

namespace Sys2Proof.Machine

open Sys2Proof

/-- `SGN`: the input is negative, `v[31] = 1` (R70). -/
def signOf (v : IntWord) : Bool :=
  v.getLsbD 31

/-- `MAG`: the unsigned 32-bit magnitude (R70). -/
def magnitudeOf (v : IntWord) : IntWord :=
  if signOf v then neg32 v else v

/-- The head's data, `(MAG[3:0] << 1) | SGN` (R71). -/
def headData (mag : IntWord) (sgn : Bool) : Sextet :=
  ((mag.extractLsb' 0 4).setWidth 6 <<< 1) ||| (BitVec.ofBool sgn).setWidth 6

/-- A tail's data, `MAG[4:0]` (R72). -/
def tailData (mag : IntWord) : Sextet :=
  (mag.extractLsb' 0 5).setWidth 6

/-- The tail loop of R69, run while `MAG` is not zero, for at most `fuel` sextets. -/
def encodeTails : Nat → IntWord → List Sextet
  | 0, _ => []
  | fuel + 1, mag =>
    if mag = 0 then []
    else withContinuation (mag >>> 5 != 0) (tailData mag) :: encodeTails fuel (mag >>> 5)

/-- The most tail sextets one integer has: the loop of R69 runs at most 6 times (R13, R74). -/
def maxTails : Nat := 6

/-- `vlq_encode` (R69). -/
def vlqEncode (v : IntWord) : List Sextet :=
  withContinuation (magnitudeOf v >>> 4 != 0) (headData (magnitudeOf v) (signOf v))
    :: encodeTails maxTails (magnitudeOf v >>> 4)

/-- The response of VLQ_ENCODE (R69). A list of another length than one is refused (R33 (b)), so what stands here for it
is never delivered. -/
def vlqEncodeResponse (xs : List IntWord) : Response :=
  okResponse ((xs.flatMap vlqEncode).map .sextet)

/-- VLQ_ENCODE, OP 2 (R69). -/
def execVlqEncode (xs : List IntWord) (s : State) : Host.Outcome State Fault Refusal :=
  conclude (.vlqEncode xs) (vlqEncodeResponse xs) s

end Sys2Proof.Machine
end

