-- ==== Sys2Proof/Machine/TopLevel.lean ====
section
/-! DEFINITION. ENCODE and DECODE, the compositions of the units (spec 44_top_level.md R95, R96). -/

namespace Sys2Proof.Machine

open Sys2Proof

/-- The response of ENCODE: the map of the concatenated VLQs (R95). -/
def encodeResponse (rom : AlphaRom) (xs : List IntWord) : Response :=
  okResponse ((b64Map rom (xs.flatMap vlqEncode)).map .char)

/-- Unmap, then frame, then decode each chunk; the first failing unit's error ends the request (R96). -/
def decodeText (rom : RlutRom) (cs : List CharCode) : Except CodecError (List IntWord) :=
  match b64Unmap rom cs with
  | .error e => .error e
  | .ok ss =>
    match frame ss with
    | .error e => .error e
    | .ok chunks => .ok (chunks.map vlqDecode)

/-- The response of DECODE (R96). -/
def decodeResponse (rom : RlutRom) (cs : List CharCode) : Response :=
  match decodeText rom cs with
  | .ok xs => okResponse (xs.map .int)
  | .error e => raise e

/-- ENCODE, OP 0 (R95). -/
def execEncode (xs : List IntWord) (s : State) : Host.Outcome State Fault Refusal :=
  conclude (.encode xs) (encodeResponse s.alpha xs) s

/-- DECODE, OP 1 (R96). -/
def execDecode (cs : List CharCode) (s : State) : Host.Outcome State Fault Refusal :=
  conclude (.decode cs) (decodeResponse s.rlut cs) s

end Sys2Proof.Machine
end

