-- ==== Sys2Proof/Machine/Dispatch.lean ====
section
/-! DEFINITION. One arm per constructor of Instr: the perform step of each operation (spec 30_encoding.md R54). -/

namespace Sys2Proof.Machine

open Sys2Proof

def exec (i : Instr) (s : State) : Host.Outcome State Fault Refusal :=
  match i with
  | .encode xs => Sys2Proof.Machine.execEncode xs s
  | .decode cs => Sys2Proof.Machine.execDecode cs s
  | .vlqEncode xs => Sys2Proof.Machine.execVlqEncode xs s
  | .vlqDecode ss => Sys2Proof.Machine.execVlqDecode ss s
  | .base64Encode ss => Sys2Proof.Machine.execBase64Encode ss s
  | .base64Decode cs => Sys2Proof.Machine.execBase64Decode cs s
  | .split ss => Sys2Proof.Machine.execSplit ss s

end Sys2Proof.Machine
end

