-- ==== Sys2Proof/Machine/Agents.lean ====
section
/-! DEFINITION. The steps of the two agents (spec 10_state.md R22): the codec's `perform` (R37), the host's `submit` (R35), `read`
(R36) and reset (70_reset_and_hazards.md R119, R120), and which of them moves next. A host step that the phase does not
enable is held: its turn stays in the schedule and the codec performs (R35, R36, R123). -/

namespace Sys2Proof.Machine

open Sys2Proof

/-- The codec's step on the request registers (R37). Code 7 is refused (R33 (a)). -/
def perform (s : State) : Host.Outcome State Fault Refusal :=
  match s.reqOp, s.reqIn with
  | some op, some es =>
    match decode op es with
    | .ok i => exec i s
    | .error .reservedOp => .next s.markRefused
    | .error .elementType => .refused .operandType
  | _, _ => .fault .requestAbsent

/-- `submit(op, in)`: both request registers are written, the response registers become valueless, phase becomes Pending
(R35). -/
def State.submit (r : Request) (s : State) : State :=
  { s with
    phase := .pending
    reqOp := some (requestOp r)
    reqIn := some (requestIn r)
    rspStatus := none
    rspErrPos := none
    rspOut := none }

/-- What a `read()` in phase Done leaves: the block as it was, and one more response in the host's record (R36, R46). -/
def State.recordRead (r : Response) (s : State) : State :=
  { s with reads := s.reads ++ [r] }

/-- `read()` in phase Done (R36). -/
def readResponse (s : State) : Host.Outcome State Fault Refusal :=
  match s.rspStatus, s.rspOut with
  | some status, some out =>
    .next (s.recordRead { status := status, errPos := s.rspErrPos, out := out })
  | _, _ => .fault .responseAbsent

/-- The reset event (R119, R120): the registers lose their values, phase is Idle, the refusal mark is clear; the ROMs (R118),
the block's bounds and the host's own records stay. That it also clears a mark set earlier in the run is DEDUCED
(notes/assumptions/4.md). -/
def State.resetBlock (s : State) : State :=
  { s with
    phase := .idle
    reqOp := none
    reqIn := none
    rspStatus := none
    rspErrPos := none
    rspOut := none
    refusalMark := false }

/-- The host's turn is used up. -/
def State.withSchedule (ts : List Turn) (s : State) : State :=
  { s with schedule := ts }

/-- The codec's step where it is enabled; otherwise the block holds its state (R37, R117). -/
def codecTurn (s : State) : Host.Outcome State Fault Refusal :=
  match s.phase with
  | .pending => perform s
  | .idle => .next s
  | .done => .next s

/-- A submit turn followed by `rest` (R35). -/
def submitTurn (r : Request) (rest : List Turn) (s : State) : Host.Outcome State Fault Refusal :=
  match s.phase with
  | .pending => perform s
  | .idle => .next ((s.withSchedule rest).submit r)
  | .done => .next ((s.withSchedule rest).submit r)

/-- A read turn followed by `rest` (R36). In phase Pending the host holds and the codec performs. In phase Idle the read
"reads registers nothing has written, and faults" (R36; R30, R119, D16, and V5 with the treatment `fault`). -/
def readTurn (rest : List Turn) (s : State) : Host.Outcome State Fault Refusal :=
  match s.phase with
  | .pending => perform s
  | .idle => .fault .readBeforeResponse
  | .done => readResponse (s.withSchedule rest)

/-- The next step of the machine (R22). With no turn left the codec still performs a pending request, and otherwise the
block holds its state (R117, R126). -/
def takeTurn (s : State) : Host.Outcome State Fault Refusal :=
  match s.schedule with
  | [] => codecTurn s
  | .submit r :: rest => submitTurn r rest s
  | .read :: rest => readTurn rest s
  | .reset :: rest => .next (s.withSchedule rest).resetBlock
  | .codec :: rest => codecTurn (s.withSchedule rest)
  | .wait :: rest => .next (s.withSchedule rest)

/-- A table word's request placed in the request registers as a submit leaves it, with the codec's turn next
(notes/assumptions/6.md). -/
def placeTableWord (w : Nat) (s : State) : State :=
  { s with
    phase := .pending
    reqOp := some (tableOp w)
    reqIn := some (tableOperand (tableOp w))
    rspStatus := none
    rspErrPos := none
    rspOut := none
    schedule := .codec :: s.schedule }

end Sys2Proof.Machine
end

