-- ==== Sys2Proof/Machine/Step.lean ====
section
/-! DEFINITION. The one step of the machine, and the placing of an instruction where the next step runs it. -/

namespace Sys2Proof.Machine

open Sys2Proof

/-- One step: the next turn of the host, or the codec's perform (spec 10_state.md R22, R35, R36, R37). -/
def step (s : State) : Host.Outcome State Fault Refusal :=
  takeTurn s

/-- The state in which the next step performs a row of spec/opcode_table.json (notes/assumptions/6.md, 7.md). -/
def State.withFetchWord (s : State) (_nbits w : Nat) : State :=
  placeTableWord w s

end Sys2Proof.Machine
end

