-- ==== Sys2Proof/Safety.lean ====
section
/-! DEFINITION. The terms the statements use: the function `F` of spec 10_state.md R34, the formats of 30_encoding.md R57 to R59
read as numbers, the refusal cases of R33, and what a coherent state of the block is (R28, R30, R32, R37). None of them is
used by the machine. -/

namespace Sys2Proof.Machine

open Sys2Proof

/-- `F(REQ_OP, REQ_IN)` of R34: the response to each request. -/
def responseTo (s : State) : Instr → Response
  | .encode xs => encodeResponse s.alpha xs
  | .decode cs => decodeResponse s.rlut cs
  | .vlqEncode xs => vlqEncodeResponse xs
  | .vlqDecode ss => vlqDecodeResponse ss
  | .base64Encode ss => base64EncodeResponse s.alpha ss
  | .base64Decode cs => base64DecodeResponse s.rlut cs
  | .split ss => splitResponse ss

/-- `n` steps, stopping at the first fault or refusal: the run of `core` over the model's own names. -/
def steps : Nat → State → Host.Outcome State Fault Refusal
  | 0, s => .next s
  | n + 1, s =>
    match step s with
    | .next t => steps n t
    | .fault r => .fault r
    | .refused r => .refused r

/-- The tail terms of `Mfull` from position `k` on: `v[k][4:0] * 2^(5k-1)` each (R57). -/
def tailSum : Nat → List Sextet → Nat
  | _, [] => 0
  | k, x :: xs => (tailPayload x).toNat * 2 ^ (5 * k - 1) + tailSum (k + 1) xs

/-- `Mfull(v)`, the exact unbounded magnitude of a VLQ (R57). -/
def mfull : List Sextet → Nat
  | [] => 0
  | head :: tails => (headPayload head).toNat + tailSum 1 tails

/-- The pattern R89 gives a VLQ: `Mfull mod 2^32`, negated mod 2^32 where the sign flag is 1. -/
def decodedPattern : List Sextet → IntWord
  | [] => 0
  | head :: tails =>
    if signFlag head then BitVec.ofNat 32 (2 ^ 32 - mfull (head :: tails) % 2 ^ 32)
    else BitVec.ofNat 32 (mfull (head :: tails) % 2 ^ 32)

/-- `n(M)`, the number of sextets of a canonical VLQ of magnitude `M` (R59 (a)). -/
def encodedLength (m : Nat) : Nat :=
  if m < 2 ^ 4 then 1
  else if m < 2 ^ 9 then 2
  else if m < 2 ^ 14 then 3
  else if m < 2 ^ 19 then 4
  else if m < 2 ^ 24 then 5
  else if m < 2 ^ 29 then 6
  else 7

/-- The magnitude of an int32 pattern, `|toInt(v)|` (R18, R70). -/
def intMagnitude (v : IntWord) : Nat :=
  v.toInt.natAbs

/-- The VLQ invariant: non-empty, continuation flag set on every sextet but the last (R58). -/
def VlqInvariant (ss : List Sextet) : Prop :=
  ss ≠ [] ∧ ∀ (k : Nat) (h : k < ss.length), contFlag ss[k] = decide (k + 1 < ss.length)

/-- A forward datapath for the tails: `v[k][4:0] * 2^(5k-1)` is added as sextet `k` arrives, bits above 31 dropped (R92). -/
def forwardTails (acc : IntWord) : Nat → List Sextet → IntWord
  | _, [] => acc
  | k, x :: xs => forwardTails (acc + (tailPayload x).setWidth 32 <<< (5 * k - 1)) (k + 1) xs

/-- The forward (streaming) decoder of R92. -/
def forwardDecode : List Sextet → IntWord
  | [] => 0
  | head :: tails =>
    if signFlag head then 0 - forwardTails ((headPayload head).setWidth 32) 1 tails
    else forwardTails ((headPayload head).setWidth 32) 1 tails

/-- Input and output lengths are within the block's bounds (R15, R33 (d), (e)). -/
def State.WithinBounds (s : State) (nIn nOut : Nat) : Prop :=
  (∀ b, s.cfg.maxInLen = some b → nIn ≤ b) ∧ ∀ b, s.cfg.maxOutLen = some b → nOut ≤ b

/-- The codec refuses request `i`: R33 (b), (c), (d), (e). Case (a) is code 7, which no `Instr` stands for. -/
def State.Refused (s : State) (i : Instr) : Prop :=
  (∃ xs, i = .vlqEncode xs ∧ xs.length ≠ 1)
    ∨ i = .vlqDecode []
    ∨ (∃ b, s.cfg.maxInLen = some b ∧ b < (encode i).2.length)
    ∨ ∃ b, s.cfg.maxOutLen = some b ∧ b < (responseTo s i).out.length

/-- The state after request `i` is answered with `r`: the response registers, phase Done (R37), and one more pair in the
model's record of R127. Everything else is as it was. -/
def State.answered (s : State) (i : Instr) (r : Response) : State :=
  { s with
    phase := .done
    rspStatus := some r.status
    rspErrPos := r.errPos
    rspOut := some r.out
    observation := s.observation ++ [(i, r)] }

/-- The request registers hold `i` (R28). -/
def State.HoldsRequest (s : State) (i : Instr) : Prop :=
  s.reqOp = some (encode i).1 ∧ s.reqIn = some (encode i).2

/-- The request registers hold a request with the reserved code (R33 (a), R66). -/
def State.HoldsReserved (s : State) : Prop :=
  s.reqOp = some 7#3 ∧ ∃ es, s.reqIn = some es

/-- The response registers hold no value (R30). -/
def State.NoResponse (s : State) : Prop :=
  s.rspStatus = none ∧ s.rspErrPos = none ∧ s.rspOut = none

/-- The response registers hold `r` (R30). -/
def State.HoldsResponse (s : State) (r : Response) : Prop :=
  s.rspStatus = some r.status ∧ s.rspErrPos = r.errPos ∧ s.rspOut = some r.out

/-- Phase, registers, refusal mark and record agree as the spec's rules say. -/
structure State.Coherent (s : State) : Prop where
  /-- In phase Idle no register holds a value (R32, R119). -/
  idle : s.phase = .idle → s.reqOp = none ∧ s.reqIn = none ∧ s.NoResponse
  /-- In phase Pending a request is held and no response (R32, R35). -/
  pending : s.phase = .pending → ((∃ i, s.HoldsRequest i) ∨ s.HoldsReserved) ∧ s.NoResponse
  /-- In phase Done the response registers hold `F` of the held request, which was not refused (R32, R34, R37). -/
  done : s.phase = .done → ∃ i, s.HoldsRequest i ∧ ¬ s.Refused i ∧ s.HoldsResponse (responseTo s i)
  /-- The refusal mark stands only beside a pending request that R33 refuses (R37). -/
  mark : s.refusalMark = true →
    s.phase = .pending ∧ (s.HoldsReserved ∨ ∃ i, s.HoldsRequest i ∧ s.Refused i)
  /-- Every recorded pair is a request with `F` of it (R34, R127). -/
  observed : ∀ p ∈ s.observation, p.2 = responseTo s p.1

/-- The ROMs hold what R26, R27 and R61 say. -/
def State.RomsHold (s : State) : Prop :=
  s.alpha = alphabet ∧ s.rlut = rlutOf alphabet

/-- `RLUT` inverts `ALPHA` (R27): what a round trip through characters needs of the ROMs, under any coding of the alphabet. -/
def State.RomsInverse (s : State) : Prop :=
  ∀ x : Sextet, readRlut s.rlut (readAlpha s.alpha x) = ⟨true, x⟩

/-- The run has ended (R127): no request is pending, none was refused, and the host submits nothing more. -/
def State.RunEnded (s : State) : Prop :=
  s.phase ≠ .pending ∧ s.refusalMark = false ∧ ∀ r, Turn.submit r ∉ s.schedule

end Sys2Proof.Machine
end

