-- ==== Sys2Proof/Certificates/Slice0/Obligations.lean ====
section
/-! DEFINITION. The statements for the provers. Each docstring names the rule of spec/ it formalises. "OK" is status 0,
"InvalidCharacter" status 1, "UnterminatedVlq" status 2 (R101). `State.answered` (Safety.lean) is the state with phase Done,
the given response in the response registers, one more pair in the model's record, and EVERYTHING ELSE as it was: each
statement that names it states the instruction's frame with its result. No statement rests on the values the model chose
for `cfg`, `schedule`, `reads` and `observation` at reset (notes/assumptions/1.md, 5.md, 10.md). -/

open Sys2Proof Sys2Proof.Machine

/-! ### Encoding and fetch -/

/-- The decoder and the encoder of R54's table are inverse to each other, over every operand list. -/
def Obligations.DecodeAndEncodeAgree : Prop :=
  (∀ i : Instr, decode (encode i).1 (encode i).2 = .ok i) ∧
  ∀ (op : OpCode) (es : List Element) (i : Instr), decode op es = .ok i → encode i = (op, es)

/-- R54, R66: a pair is a request exactly when its code selects an input type and every element has it; code 7, and only
code 7, is rejected as reserved. -/
def Obligations.DecodeAcceptsExactlyTypedLists : Prop :=
  ∀ (op : OpCode) (es : List Element),
    ((∃ i, decode op es = .ok i) ↔ ∃ t, inputType op = some t ∧ ∀ e ∈ es, e.type = t) ∧
    (decode op es = .error .reservedOp ↔ op = 7#3)

/-- R54's table: the code of each row selects its operation (sample operands of one element), and code 7 none. -/
def Obligations.CodesSelectTheirOperations : Prop :=
  decode 0b000#3 [.int 0xFFFFFFAF] = .ok (.encode [0xFFFFFFAF]) ∧
  decode 0b001#3 [.char 0x6A] = .ok (.decode [0x6A]) ∧
  decode 0b010#3 [.int 0xFFFFFFAF] = .ok (.vlqEncode [0xFFFFFFAF]) ∧
  decode 0b011#3 [.sextet 0x23] = .ok (.vlqDecode [0x23]) ∧
  decode 0b100#3 [.sextet 0x23] = .ok (.base64Encode [0x23]) ∧
  decode 0b101#3 [.char 0x6A] = .ok (.base64Decode [0x6A]) ∧
  decode 0b110#3 [.sextet 0x23] = .ok (.split [0x23]) ∧
  decode 0b111#3 [.sextet 0x23] = .error .reservedOp

/-- R37 with the holds of R35 and R36: in phase Pending the step is `exec` of the instruction the request registers decode
to, where the host's next turn is the codec's, a held submit or read, or missing. A codec turn is used up; a held turn
stays in the schedule. With a wait turn next, the step only uses up that turn and the request stays pending (R126); a reset
turn is ResetEventDiscardsThePendingRequest. The turns, the codec performing in place of a held or missing one, and the
waits are the model's choice (notes/assumptions/5.md). -/
def Obligations.PendingStepRunsTheDecodedInstruction : Prop :=
  ∀ (s : State) (op : OpCode) (es : List Element) (i : Instr),
    s.phase = .pending → s.reqOp = some op → s.reqIn = some es → decode op es = .ok i →
      (s.schedule = [] → step s = exec i s) ∧
      (∀ rest, s.schedule = .codec :: rest → step s = exec i { s with schedule := rest }) ∧
      (∀ r rest, s.schedule = .submit r :: rest → step s = exec i s) ∧
      (∀ rest, s.schedule = .read :: rest → step s = exec i s) ∧
      ∀ rest, s.schedule = .wait :: rest → step s = .next { s with schedule := rest }

/-- A placed table word runs next, at a state that differs only in phase, request registers and response registers, as
after a submit (R35). The placing is the model's choice (notes/assumptions/6.md, 7.md). -/
def Obligations.PlacedWordIsTheNextInstruction : Prop :=
  ∀ (s : State) (nbits w : Nat) (i : Instr), decodeTableWord nbits w = some i →
    step (s.withFetchWord nbits w) =
      exec i { s with
        phase := .pending
        reqOp := some (encode i).1
        reqIn := some (encode i).2
        rspStatus := none
        rspErrPos := none
        rspOut := none }

/-! ### The results of the operations -/

/-- R95: ENCODE. The characters of each integer's VLQ, concatenated in input order; the output length is the sum of
`n(|x|)`, between the input length and 7 times that. -/
def Obligations.EncodeConcatenatesTheCharacterRuns : Prop :=
  ∀ (xs : List IntWord) (s : State), s.phase = .pending →
    s.WithinBounds xs.length ((xs.map fun x => encodedLength (intMagnitude x)).sum) →
      exec (.encode xs) s = .next (s.answered (.encode xs)
        ⟨0#2, none, xs.flatMap fun x => (vlqEncode x).map fun y => .char (readAlpha s.alpha y)⟩) ∧
      (xs.flatMap fun x => (vlqEncode x).map fun y => Element.char (readAlpha s.alpha y)).length =
        (xs.map fun x => encodedLength (intMagnitude x)).sum ∧
      xs.length ≤ (xs.map fun x => encodedLength (intMagnitude x)).sum ∧
      (xs.map fun x => encodedLength (intMagnitude x)).sum ≤ 7 * xs.length

/-- R96: DECODE on alphabet characters whose sextets are complete VLQs. One integer per VLQ, in order, each of R89's value. -/
def Obligations.DecodeYieldsOneIntegerPerVlq : Prop :=
  ∀ (cs : List CharCode) (chunks : List (List Sextet)) (s : State), s.phase = .pending →
    (∀ c ∈ cs, (readRlut s.rlut c).valid = true) →
    (cs.map fun c => (readRlut s.rlut c).index) = chunks.flatten → (∀ v ∈ chunks, VlqInvariant v) →
    s.WithinBounds cs.length chunks.length →
      exec (.decode cs) s = .next (s.answered (.decode cs)
        ⟨0#2, none, chunks.map fun v => .int (decodedPattern v)⟩)

/-- R71, R72, R73: VLQ_ENCODE. With `M` the magnitude: the sign flag is 1 exactly for a negative input, the head carries
`M[3:0]`, tail `k` carries `M[5k+3:5k-1]`, there are `n(M)` sextets, and bit 5 is set on every sextet but the last. -/
def Obligations.VlqEncodePlacesSignMagnitudeAndFlags : Prop :=
  ∀ (v : IntWord) (s : State), s.phase = .pending →
    s.WithinBounds 1 (encodedLength (intMagnitude v)) →
      ∃ ss : List Sextet,
        exec (.vlqEncode [v]) s = .next (s.answered (.vlqEncode [v]) ⟨0#2, none, ss.map .sextet⟩) ∧
        ss.length = encodedLength (intMagnitude v) ∧
        (∀ (k : Nat) (h : k < ss.length), contFlag ss[k] = decide (k + 1 < ss.length)) ∧
        (∀ h : 0 < ss.length, signFlag ss[0] = decide (v.toInt < 0) ∧
          (headPayload ss[0]).toNat = intMagnitude v % 2 ^ 4) ∧
        ∀ (k : Nat) (h : k < ss.length), 1 ≤ k →
          (tailPayload ss[k]).toNat = intMagnitude v / 2 ^ (5 * k - 1) % 2 ^ 5

/-- R88, R89: VLQ_DECODE on every non-empty list, whatever its continuation flags: `Mfull mod 2^32`, negated mod 2^32 where
the head's bit 0 is 1; never an error. -/
def Obligations.VlqDecodeWrapsTheExactMagnitude : Prop :=
  ∀ (head : Sextet) (tails : List Sextet) (s : State), s.phase = .pending →
    s.WithinBounds (tails.length + 1) 1 →
      exec (.vlqDecode (head :: tails)) s = .next (s.answered (.vlqDecode (head :: tails))
        ⟨0#2, none, [.int (
          if head.getLsbD 0 then BitVec.ofNat 32 (2 ^ 32 - mfull (head :: tails) % 2 ^ 32)
          else BitVec.ofNat 32 (mfull (head :: tails) % 2 ^ 32))]⟩)

/-- R77: B64_ENCODE on every sextet list, one `ALPHA` character per sextet, in order; never an error. -/
def Obligations.Base64EncodeMapsEverySextet : Prop :=
  ∀ (ss : List Sextet) (s : State), s.phase = .pending → s.WithinBounds ss.length ss.length →
    exec (.base64Encode ss) s = .next (s.answered (.base64Encode ss)
      ⟨0#2, none, ss.map fun x => .char (s.alpha[x.toNat]'x.isLt)⟩)

/-- R78: B64_DECODE on a list of alphabet characters, whatever its VLQ structure. -/
def Obligations.Base64DecodeUnmapsAlphabetText : Prop :=
  ∀ (cs : List CharCode) (s : State), s.phase = .pending → s.WithinBounds cs.length cs.length →
    (∀ c ∈ cs, (s.rlut[c.toNat]'c.isLt).valid = true) →
      exec (.base64Decode cs) s = .next (s.answered (.base64Decode cs)
        ⟨0#2, none, cs.map fun c => .sextet (s.rlut[c.toNat]'c.isLt).index⟩)

/-- R63, R82: SPLIT on a list that is empty or ends with a clear continuation flag. Every input sextet is delivered once, in
order, framed with `LAST = ~sextet[5]`. -/
def Obligations.SplitFramesATerminatedStream : Prop :=
  ∀ (ss : List Sextet) (s : State), s.phase = .pending → s.WithinBounds ss.length ss.length →
    (∀ h : ss ≠ [], (ss.getLast h).getLsbD 5 = false) →
      exec (.split ss) s = .next (s.answered (.split ss)
        ⟨0#2, none, ss.map fun x => .framed (BitVec.ofBool (!x.getLsbD 5) ++ x)⟩)

/-! ### Errors -/

/-- R79: B64_DECODE reports the lowest index of a character outside the alphabet, and delivers nothing (R105). -/
def Obligations.Base64DecodeReportsTheFirstInvalidCharacter : Prop :=
  ∀ (good rest : List CharCode) (c : CharCode) (s : State), s.phase = .pending →
    s.WithinBounds (good.length + rest.length + 1) 0 →
    (∀ d ∈ good, (readRlut s.rlut d).valid = true) → (readRlut s.rlut c).valid = false →
      exec (.base64Decode (good ++ c :: rest)) s =
        .next (s.answered (.base64Decode (good ++ c :: rest)) ⟨1#2, some good.length, []⟩)

/-- R83: SPLIT on complete VLQs followed by sextets whose flags are all set reports the first of those sextets, and
delivers no chunk (R105). -/
def Obligations.SplitReportsTheUnclosedTail : Prop :=
  ∀ (closed tail : List Sextet) (s : State), s.phase = .pending →
    s.WithinBounds (closed.length + tail.length) 0 →
    (∀ h : closed ≠ [], contFlag (closed.getLast h) = false) → tail ≠ [] → (∀ x ∈ tail, contFlag x = true) →
      exec (.split (closed ++ tail)) s =
        .next (s.answered (.split (closed ++ tail)) ⟨2#2, some closed.length, []⟩)

/-- R106 (2), (3): in DECODE the first character outside the alphabet is reported whatever the sextets before it and the
characters behind it are. -/
def Obligations.DecodeReportsInvalidCharacterFirst : Prop :=
  ∀ (good rest : List CharCode) (c : CharCode) (s : State), s.phase = .pending →
    s.WithinBounds (good.length + rest.length + 1) 0 →
    (∀ d ∈ good, (readRlut s.rlut d).valid = true) → (readRlut s.rlut c).valid = false →
      exec (.decode (good ++ c :: rest)) s =
        .next (s.answered (.decode (good ++ c :: rest)) ⟨1#2, some good.length, []⟩)

/-- R96, R103: DECODE on alphabet characters whose last VLQ never closes reports that VLQ's first character. -/
def Obligations.DecodeReportsTheUnclosedVlq : Prop :=
  ∀ (closed tail : List CharCode) (s : State), s.phase = .pending →
    s.WithinBounds (closed.length + tail.length) 0 →
    (∀ c ∈ closed ++ tail, (readRlut s.rlut c).valid = true) →
    (∀ h : closed ≠ [], contFlag (readRlut s.rlut (closed.getLast h)).index = false) → tail ≠ [] →
    (∀ c ∈ tail, contFlag (readRlut s.rlut c).index = true) →
      exec (.decode (closed ++ tail)) s =
        .next (s.answered (.decode (closed ++ tail)) ⟨2#2, some closed.length, []⟩)

/-- R105: whatever instruction ends in an error status, no output element is delivered; and the position of R103 is an
index into the request's input. -/
def Obligations.AnErrorDeliversNoOutput : Prop :=
  ∀ (i : Instr) (s t : State), s.phase = .pending → exec i s = .next t → t.phase = .done →
    t.rspStatus ≠ some 0#2 →
      t.rspOut = some [] ∧ ∃ p, t.rspErrPos = some p ∧ p < (encode i).2.length

/-- R101: the status of a performed request is 0, or 1 from B64_DECODE or DECODE, or 2 from SPLIT or DECODE; an OK response
has no error position; status 3 is never produced. -/
def Obligations.EachErrorHasItsRaisers : Prop :=
  ∀ (i : Instr) (s t : State), s.phase = .pending → exec i s = .next t → t.phase = .done →
    (t.rspStatus = some 0#2 ∧ t.rspErrPos = none) ∨
    (t.rspStatus = some 1#2 ∧ ∃ cs, i = .base64Decode cs ∨ i = .decode cs) ∨
    (t.rspStatus = some 2#2 ∧ ((∃ ss, i = .split ss) ∨ ∃ cs, i = .decode cs))

/-- R30, R54: every element of a performed request's output is of the output type its operation code selects. -/
def Obligations.OutputElementsHaveTheOutputType : Prop :=
  ∀ (i : Instr) (s t : State) (out : List Element), s.phase = .pending → exec i s = .next t → t.phase = .done →
    t.rspOut = some out → ∀ e ∈ out, outputType (encode i).1 = some e.type

/-- R108, R28: what no perform step changes, for all seven operations: the bounds, the ROMs, the request registers, the
host's turns and reads; and a perform step that does not respond changes the refusal mark only. -/
def Obligations.PerformLeavesTheRestUnchanged : Prop :=
  ∀ (i : Instr) (s t : State), s.phase = .pending → exec i s = .next t →
    t.cfg = s.cfg ∧ t.alpha = s.alpha ∧ t.rlut = s.rlut ∧ t.reqOp = s.reqOp ∧ t.reqIn = s.reqIn ∧
    t.schedule = s.schedule ∧ t.reads = s.reads ∧
    (t.phase = .done → t.refusalMark = s.refusalMark) ∧
    (t.phase ≠ .done → t = { s with refusalMark := true })

/-! ### Refusal -/

/-- R33, R37: the codec's turn in phase Pending. A request with code 7, with a list of another length than one under
VLQ_ENCODE, with the empty list under VLQ_DECODE, with more input than `MAX_IN_LEN`, or with a response longer than
`MAX_OUT_LEN`, sets the refusal mark and phase stays Pending; every other request is answered with `F` of it. -/
def Obligations.CodecRefusesExactlyTheListedRequests : Prop :=
  ∀ (s : State) (rest : List Turn), s.phase = .pending → s.schedule = .codec :: rest →
    (∀ es, s.reqOp = some 7#3 → s.reqIn = some es →
      step s = .next { s with schedule := rest, refusalMark := true }) ∧
    ∀ i, s.HoldsRequest i →
      ((∃ xs, i = .vlqEncode xs ∧ xs.length ≠ 1) ∨ i = .vlqDecode [] ∨
        (∃ b, s.cfg.maxInLen = some b ∧ b < (encode i).2.length) ∨
        (∃ b, s.cfg.maxOutLen = some b ∧ b < (responseTo s i).out.length) →
          step s = .next { s with schedule := rest, refusalMark := true }) ∧
      ((∀ xs, i = .vlqEncode xs → xs.length = 1) → i ≠ .vlqDecode [] →
        s.WithinBounds (encode i).2.length (responseTo s i).out.length →
          step s = .next (State.answered { s with schedule := rest } i (responseTo s i)))

/-- R33, V11: once the refusal mark is set, every step but a reset leaves it set, phase Pending and the response registers
without a value. That a reset ends it is DEDUCED from R119 (notes/assumptions/4.md). -/
def Obligations.RefusalMarkIsKeptUntilReset : Prop :=
  ∀ s : State, s.Coherent → s.refusalMark = true → (∀ rest, s.schedule ≠ .reset :: rest) →
    ∃ t, step s = .next t ∧ t.refusalMark = true ∧ t.phase = .pending ∧ t.NoResponse ∧
      t.reqOp = s.reqOp ∧ t.reqIn = s.reqIn

/-! ### The host's steps and reset -/

/-- R119, R118: what reset leaves, and that a read before the first response faults. -/
def Obligations.ResetLeavesIdleAndNoValues : Prop :=
  State.reset.phase = .idle ∧ State.reset.reqOp = none ∧ State.reset.reqIn = none ∧
  State.reset.rspStatus = none ∧ State.reset.rspErrPos = none ∧ State.reset.rspOut = none ∧
  State.reset.refusalMark = false ∧ State.reset.RomsHold ∧
  ∀ rest, step { State.reset with schedule := .read :: rest } = .fault .readBeforeResponse

/-- R119, R120: the reset event in any phase. A pending request is gone without a response; the ROMs (R118) and the bounds
stay. That a refusal mark set earlier in the run is cleared is DEDUCED (notes/assumptions/4.md); that the records `reads`
and `observation` stay is the model's choice (notes/assumptions/10.md), and so are the turns (notes/assumptions/5.md). -/
def Obligations.ResetEventDiscardsThePendingRequest : Prop :=
  ∀ (s : State) (rest : List Turn), s.schedule = .reset :: rest →
    step s = .next { s with
      phase := .idle
      reqOp := none
      reqIn := none
      rspStatus := none
      rspErrPos := none
      rspOut := none
      refusalMark := false
      schedule := rest }

/-- R35: submit in phase Idle or Done writes the request, an operation's or one with the reserved code 7, makes the response
valueless and phase Pending, and nothing else; in phase Pending the host holds, its turn and the request registers stay. That
any list may stand with code 7 is the model's choice (notes/assumptions/8.md). -/
def Obligations.SubmitWritesTheRequestOrHolds : Prop :=
  ∀ (s : State) (r : Request) (op : OpCode) (es : List Element) (rest : List Turn),
    s.schedule = .submit r :: rest →
    (∃ i, r = .operation i ∧ encode i = (op, es)) ∨ (r = .reserved es ∧ op = 7#3) →
      (s.phase ≠ .pending →
        step s = .next { s with
          phase := .pending
          reqOp := some op
          reqIn := some es
          rspStatus := none
          rspErrPos := none
          rspOut := none
          schedule := rest }) ∧
      (s.phase = .pending → ∀ t, step s = .next t →
        t.schedule = s.schedule ∧ t.reqOp = s.reqOp ∧ t.reqIn = s.reqIn)

/-- R36: read in phase Done returns the response registers and changes no register; in phase Idle it faults; in phase
Pending the host holds and nothing is returned. -/
def Obligations.ReadReturnsTheResponseOrHoldsOrFaults : Prop :=
  ∀ (s : State) (rest : List Turn), s.schedule = .read :: rest →
    (∀ status out, s.phase = .done → s.rspStatus = some status → s.rspOut = some out →
      step s = .next { s with schedule := rest, reads := s.reads ++ [⟨status, s.rspErrPos, out⟩] }) ∧
    (s.phase = .idle → step s = .fault .readBeforeResponse) ∧
    (s.phase = .pending → ∀ t, step s = .next t → t.schedule = s.schedule ∧ t.reads = s.reads)

/-- R28, R30, R36, R119: reading a register without a value. After a reset event in any state, and whatever turns follow it,
a read before the next submit faults. In a coherent state a read outside phase Pending faults exactly when the status or
the output is without a value, and no perform step meets an absent value: in phase Pending both request registers hold a
value and the step answers. The turns are the model's choice (notes/assumptions/5.md). -/
def Obligations.AbsentRegistersFault : Prop :=
  ∀ s : State,
    (∀ turns rest, (∀ r, Turn.submit r ∉ turns) → Turn.read ∉ turns →
      s.schedule = .reset :: (turns ++ .read :: rest) →
        steps (turns.length + 2) s = .fault .readBeforeResponse) ∧
    (s.Coherent → s.phase ≠ .pending → ∀ rest, s.schedule = .read :: rest →
      (step s = .fault .readBeforeResponse ↔ s.rspStatus = none ∨ s.rspOut = none)) ∧
    (s.Coherent → s.phase = .pending →
      s.reqOp.isSome = true ∧ s.reqIn.isSome = true ∧ ∃ t, step s = .next t)

/-- R46: a response read any number of times is the same each time, and the block is as it was. The read turns and the
record of reads are the model's own (notes/assumptions/5.md, 10.md). -/
def Obligations.RepeatedReadsReturnTheSame : Prop :=
  ∀ (n : Nat) (s : State) (rest : List Turn) (status : StatusCode) (out : List Element),
    s.phase = .done → s.rspStatus = some status → s.rspOut = some out →
    s.schedule = List.replicate n .read ++ rest →
      steps n s = .next { s with
        schedule := rest
        reads := s.reads ++ List.replicate n ⟨status, s.rspErrPos, out⟩ }

/-- R117: with no request pending the block holds its state until a submit; codec and wait turns only pass. The
turns, and that a step without one answers the same state, are the model's choice (notes/assumptions/5.md, 17.md). -/
def Obligations.TheBlockHoldsItsStateBetweenRequests : Prop :=
  ∀ s : State, s.phase ≠ .pending →
    (s.schedule = [] → step s = .next s) ∧
    (∀ rest, s.schedule = .codec :: rest → step s = .next { s with schedule := rest }) ∧
    ∀ rest, s.schedule = .wait :: rest → step s = .next { s with schedule := rest }

/-- R49: a host that submits an admitted request and then reads gets `F` of that request, from any phase but Pending and
whatever came before; its pair joins the observation (R127). That it takes exactly three steps, the codec performing at
the second in place of the held read, is the model's choice (notes/assumptions/5.md), and so is that reads and pairs are
recorded in State, the pair at the perform step (notes/assumptions/10.md). -/
def Obligations.SubmitThenReadReturnsTheResponse : Prop :=
  ∀ (s : State) (i : Instr) (rest : List Turn), s.phase ≠ .pending → ¬ s.Refused i →
    s.schedule = .submit (.operation i) :: .read :: rest →
      ∃ t, steps 3 s = .next t ∧ t.phase = .done ∧ t.schedule = rest ∧ t.HoldsRequest i ∧
        t.reads = s.reads ++ [responseTo s i] ∧ t.observation = s.observation ++ [(i, responseTo s i)]

/-- R37, R126: a pending request is performed after finitely many steps: after `k` waits, the step that is not a reset
performs or refuses it. Waits as turns are the model's choice (notes/assumptions/5.md). -/
def Obligations.APendingRequestIsPerformed : Prop :=
  ∀ (k : Nat) (s : State) (rest : List Turn), s.Coherent → s.phase = .pending →
    s.schedule = List.replicate k .wait ++ rest → (∀ r, rest ≠ .reset :: r) → (∀ r, rest ≠ .wait :: r) →
      ∃ t, steps (k + 1) s = .next t ∧
        (t.phase = .done ∨ t.phase = .pending ∧ t.refusalMark = true)

/-- R127: once a run has ended, every further step leaves it ended, with the same observation. That the record
stands in State is the model's choice (notes/assumptions/10.md). -/
def Obligations.AnEndedRunObservesNothingMore : Prop :=
  ∀ s t : State, s.RunEnded → step s = .next t → t.RunEnded ∧ t.observation = s.observation

/-! ### The whole machine -/

/-- R34: the response to a request does not depend on earlier requests, time or other agents: two states with the same
bounds and ROMs refuse it both or answer it with the same response. -/
def Obligations.TheResponseDependsOnTheRequestAlone : Prop :=
  ∀ (i : Instr) (s u : State), s.phase = .pending → u.phase = .pending →
    s.cfg = u.cfg → s.alpha = u.alpha → s.rlut = u.rlut →
      ∃ s' u', exec i s = .next s' ∧ exec i u = .next u' ∧ s'.phase = u'.phase ∧
        (s'.phase = .done → s'.rspStatus = u'.rspStatus ∧ s'.rspErrPos = u'.rspErrPos ∧ s'.rspOut = u'.rspOut)

/-- R26, R27: no step of either agent writes a ROM; nor the block's bounds. -/
def Obligations.NoStepWritesARom : Prop :=
  ∀ s t : State, step s = .next t → t.alpha = s.alpha ∧ t.rlut = s.rlut ∧ t.cfg = s.cfg

/-- R28: only a submit or a reset changes the request registers. -/
def Obligations.OnlySubmitAndResetWriteTheRequest : Prop :=
  ∀ s t : State, step s = .next t → (t.reqOp ≠ s.reqOp ∨ t.reqIn ≠ s.reqIn) →
    (∃ rest, s.schedule = .reset :: rest) ∨
    ∃ r rest, s.schedule = .submit r :: rest ∧ s.phase ≠ .pending

/-- R49, R127: the observation grows by at most one pair a step, and that pair is the performed request with the response
left in the response registers. That the pair is recorded at the perform step is the model's choice
(notes/assumptions/10.md). -/
def Obligations.TheObservationGrowsByPerformedRequests : Prop :=
  ∀ s t : State, step s = .next t →
    t.observation = s.observation ∨
    ∃ i, s.phase = .pending ∧ s.HoldsRequest i ∧ t.phase = .done ∧ t.HoldsResponse (responseTo s i) ∧
      t.observation = s.observation ++ [(i, responseTo s i)]

/-- R107: from a coherent state the only stop is a read before the first response (R36). -/
def Obligations.OnlyAnEarlyReadStopsTheMachine : Prop :=
  ∀ s : State, s.Coherent →
    (∃ t, step s = .next t) ∨
    (step s = .fault .readBeforeResponse ∧ s.phase = .idle ∧ ∃ rest, s.schedule = .read :: rest)

/-- The state after reset is coherent. -/
def Obligations.ResetIsCoherent : Prop :=
  State.reset.Coherent

/-- Every step keeps the state coherent: in Idle nothing is held; in Pending a request and no response; in Done the response
registers hold `F` of the held request (R32, R34, R37); the refusal mark stands only beside a refused pending request;
every recorded pair is a request with `F` of it. -/
def Obligations.EveryStepKeepsCoherence : Prop :=
  ∀ s t : State, s.Coherent → step s = .next t → t.Coherent

/-- Whatever the host does after reset, and whatever the bounds are, every state reached is coherent and the ROMs hold
their tables: no order of submissions, reads, waits and resets changes what a response is (R39, R49). -/
def Obligations.EveryRunFromResetIsCoherent : Prop :=
  ∀ (cfg : Config) (turns : List Turn) (n : Nat) (t : State),
    steps n { State.reset with cfg := cfg, schedule := turns } = .next t → t.Coherent ∧ t.RomsHold

/-! ### ROMs -/

/-- R61: the contents of `ALPHA` after reset, by range. The codes are PRESUMED by the spec itself (notes/assumptions/13.md). -/
def Obligations.AlphabetRomHoldsTheTable : Prop :=
  ∀ x : Sextet, (readAlpha State.reset.alpha x).toNat =
    if x.toNat < 26 then 0x41 + x.toNat
    else if x.toNat < 52 then 0x61 + (x.toNat - 26)
    else if x.toNat < 62 then 0x30 + (x.toNat - 52)
    else if x.toNat = 62 then 0x2B
    else 0x2F

/-- R27: the reverse lookup of any alphabet of distinct codes is its inverse, and (0, 0) outside it. -/
def Obligations.ReverseLookupInvertsAnyAlphabet : Prop :=
  ∀ rom : AlphaRom, (∀ x y : Sextet, readAlpha rom x = readAlpha rom y → x = y) →
    (∀ x : Sextet, readRlut (rlutOf rom) (readAlpha rom x) = ⟨true, x⟩) ∧
    ∀ c : CharCode, (∀ x : Sextet, readAlpha rom x ≠ c) → readRlut (rlutOf rom) c = ⟨false, 0⟩

/-- R27, R62: after reset the two ROMs are inverse to each other, and exactly 64 of the 256 codes are valid. The
codes are PRESUMED by the spec itself (notes/assumptions/13.md). -/
def Obligations.ResetRomsAreInverse : Prop :=
  State.reset.RomsInverse ∧
  ((List.range 256).filter fun c => (readRlut State.reset.rlut (BitVec.ofNat 8 c)).valid).length = 64

/-! ### Laws of the units and of the top level -/

/-- R59: VLQ_ENCODE's output is canonical: `n(M)` sextets with the flags of R58; a longer VLQ ends in a non-zero payload; no
negative zero; at seven sextets the last payload is at most 4, and at most 3 with the sign flag 0. -/
def Obligations.VlqEncodeIsCanonical : Prop :=
  ∀ (v : IntWord) (s : State), s.phase = .pending →
    s.WithinBounds 1 (encodedLength (intMagnitude v)) →
      ∃ ss : List Sextet,
        exec (.vlqEncode [v]) s = .next (s.answered (.vlqEncode [v]) ⟨0#2, none, ss.map .sextet⟩) ∧
        VlqInvariant ss ∧ ss.length = encodedLength (mfull ss) ∧ ss.length ≤ 7 ∧
        (∀ h : 0 < ss.length, signFlag ss[0] = true → 0 < mfull ss) ∧
        (∀ h : ss ≠ [], 1 < ss.length → tailPayload (ss.getLast h) ≠ 0) ∧
        ∀ (h : ss ≠ []) (h0 : 0 < ss.length), ss.length = 7 →
          (tailPayload (ss.getLast h)).toNat ≤ 4 ∧
          (signFlag ss[0] = false → (tailPayload (ss.getLast h)).toNat ≤ 3)

/-- R91: VLQ_DECODE of VLQ_ENCODE's output gives the integer back, for every 32-bit pattern. -/
def Obligations.VlqDecodeInvertsVlqEncode : Prop :=
  ∀ (v : IntWord) (s u : State), s.phase = .pending → u.phase = .pending →
    s.WithinBounds 1 7 → u.WithinBounds 7 1 →
      ∃ ss : List Sextet,
        exec (.vlqEncode [v]) s = .next (s.answered (.vlqEncode [v]) ⟨0#2, none, ss.map .sextet⟩) ∧
        exec (.vlqDecode ss) u = .next (u.answered (.vlqDecode ss) ⟨0#2, none, [.int v]⟩)

/-- R90: VLQ_DECODE reads positions only: two non-empty lists that agree in bits 4:0 of every sextet give the same
integer, whatever their continuation flags. -/
def Obligations.VlqDecodeIgnoresContinuationFlags : Prop :=
  ∀ (v w : List Sextet) (s : State), s.phase = .pending → v ≠ [] → s.WithinBounds v.length 1 →
    (v.map fun x => x.extractLsb' 0 5) = (w.map fun x => x.extractLsb' 0 5) →
      ∃ n : IntWord,
        exec (.vlqDecode v) s = .next (s.answered (.vlqDecode v) ⟨0#2, none, [.int n]⟩) ∧
        exec (.vlqDecode w) s = .next (s.answered (.vlqDecode w) ⟨0#2, none, [.int n]⟩)

/-- R92: the forward datapath that drops payload bits at position 32 and above gives VLQ_DECODE's result on every
non-empty list. -/
def Obligations.ForwardDatapathGivesTheSame : Prop :=
  ∀ (v : List Sextet) (s : State), s.phase = .pending → v ≠ [] → s.WithinBounds v.length 1 →
    exec (.vlqDecode v) s = .next (s.answered (.vlqDecode v) ⟨0#2, none, [.int (forwardDecode v)]⟩)

/-- R85: whenever framing does not raise, the chunks concatenate to the input, each satisfies the VLQ invariant (so none is
empty), their number is the number of clear flags, and SPLIT delivers their serialisation. -/
def Obligations.ChunksPartitionTheStream : Prop :=
  ∀ (ss : List Sextet) (s t : State) (out : List Element), s.phase = .pending → exec (.split ss) s = .next t →
    t.rspStatus = some 0#2 → t.phase = .done → t.rspOut = some out →
      ∃ chunks : List (List Sextet), chunks.flatten = ss ∧ (∀ c ∈ chunks, VlqInvariant c) ∧
        chunks.length = (ss.filter fun x => !contFlag x).length ∧
        out = (serialise chunks).map .framed

/-- R85 (f): SPLIT cuts the concatenation of encoded integers into exactly their VLQs. -/
def Obligations.SplitRecoversTheEncodedVlqs : Prop :=
  ∀ (xs : List IntWord) (s : State), s.phase = .pending →
    s.WithinBounds (xs.flatMap vlqEncode).length (xs.flatMap vlqEncode).length →
      exec (.split (xs.flatMap vlqEncode)) s = .next (s.answered (.split (xs.flatMap vlqEncode))
        ⟨0#2, none, (serialise (xs.map vlqEncode)).map .framed⟩)

/-- R80: with `RLUT` the inverse of `ALPHA`, B64_DECODE gives back what B64_ENCODE mapped; under any coding of the
alphabet. -/
def Obligations.Base64DecodeInvertsBase64Encode : Prop :=
  ∀ (ss : List Sextet) (s u : State), s.phase = .pending → u.phase = .pending →
    s.alpha = u.alpha → u.RomsInverse →
    s.WithinBounds ss.length ss.length → u.WithinBounds ss.length ss.length →
      ∃ cs : List CharCode,
        exec (.base64Encode ss) s = .next (s.answered (.base64Encode ss) ⟨0#2, none, cs.map .char⟩) ∧
        exec (.base64Decode cs) u = .next (u.answered (.base64Decode cs) ⟨0#2, none, ss.map .sextet⟩)

/-- R80: B64_ENCODE gives back what B64_DECODE unmapped, for every list of alphabet characters; under any coding of the
alphabet. -/
def Obligations.Base64EncodeInvertsBase64Decode : Prop :=
  ∀ (cs : List CharCode) (s u : State), s.phase = .pending → u.phase = .pending →
    s.rlut = rlutOf u.alpha → (∀ c ∈ cs, (readRlut s.rlut c).valid = true) →
    s.WithinBounds cs.length cs.length → u.WithinBounds cs.length cs.length →
      ∃ ss : List Sextet,
        exec (.base64Decode cs) s = .next (s.answered (.base64Decode cs) ⟨0#2, none, ss.map .sextet⟩) ∧
        exec (.base64Encode ss) u = .next (u.answered (.base64Encode ss) ⟨0#2, none, cs.map .char⟩)

/-- R97: ENCODE's response is B64_ENCODE's response to the concatenated outputs of VLQ_ENCODE. -/
def Obligations.EncodeComposesTheLowerOperations : Prop :=
  ∀ (xs : List IntWord) (vs : List (List Sextet)) (s u : State), s.phase = .pending → u.phase = .pending →
    s.alpha = u.alpha → s.WithinBounds xs.length vs.flatten.length →
    u.WithinBounds vs.flatten.length vs.flatten.length →
    List.Forall₂ (fun x v => ∀ w : State, w.phase = .pending → w.WithinBounds 1 v.length →
      exec (.vlqEncode [x]) w = .next (w.answered (.vlqEncode [x]) ⟨0#2, none, v.map .sextet⟩)) xs vs →
      ∃ out : List Element,
        exec (.base64Encode vs.flatten) u = .next (u.answered (.base64Encode vs.flatten) ⟨0#2, none, out⟩) ∧
        exec (.encode xs) s = .next (s.answered (.encode xs) ⟨0#2, none, out⟩)

/-- R98: DECODE's response is that of B64_DECODE where it fails, else that of SPLIT on the unmapped sextets where it fails,
else the integers VLQ_DECODE gives for the chunks, in order. -/
def Obligations.DecodeComposesTheLowerOperations : Prop :=
  ∀ (cs : List CharCode) (s u : State), s.phase = .pending → u.phase = .pending → s.rlut = u.rlut →
    (∀ p, exec (.base64Decode cs) u = .next (u.answered (.base64Decode cs) ⟨1#2, some p, []⟩) →
      s.WithinBounds cs.length 0 →
        exec (.decode cs) s = .next (s.answered (.decode cs) ⟨1#2, some p, []⟩)) ∧
    ∀ ss : List Sextet,
      exec (.base64Decode cs) u = .next (u.answered (.base64Decode cs) ⟨0#2, none, ss.map .sextet⟩) →
        (∀ p, exec (.split ss) u = .next (u.answered (.split ss) ⟨2#2, some p, []⟩) →
          s.WithinBounds cs.length 0 →
            exec (.decode cs) s = .next (s.answered (.decode cs) ⟨2#2, some p, []⟩)) ∧
        ∀ (chunks : List (List Sextet)) (xs : List IntWord),
          exec (.split ss) u =
            .next (u.answered (.split ss) ⟨0#2, none, (serialise chunks).map .framed⟩) →
          (∀ c ∈ chunks, VlqInvariant c) →
          List.Forall₂ (fun c x => ∀ w : State, w.phase = .pending → w.WithinBounds c.length 1 →
            exec (.vlqDecode c) w = .next (w.answered (.vlqDecode c) ⟨0#2, none, [.int x]⟩)) chunks xs →
          s.WithinBounds cs.length xs.length →
            exec (.decode cs) s = .next (s.answered (.decode cs) ⟨0#2, none, xs.map .int⟩)

/-- R99: the value round trip and the text round trip. For every list of int32 patterns, ENCODE produces a text; DECODE of
that text gives the list back; ENCODE of that list gives the text again. Under any coding of the alphabet whose `RLUT`
inverts `ALPHA`. -/
def Obligations.DecodeInvertsEncode : Prop :=
  ∀ (xs : List IntWord) (s u : State), s.phase = .pending → u.phase = .pending →
    s.alpha = u.alpha → u.RomsInverse →
    s.WithinBounds xs.length (7 * xs.length) → u.WithinBounds (7 * xs.length) xs.length →
      ∃ cs : List CharCode,
        exec (.encode xs) s = .next (s.answered (.encode xs) ⟨0#2, none, cs.map .char⟩) ∧
        exec (.decode cs) u = .next (u.answered (.decode cs) ⟨0#2, none, xs.map .int⟩) ∧
        xs.length ≤ cs.length ∧ cs.length ≤ 7 * xs.length

/-- R60, R99: the text round trip fails for non-canonical input: DECODE of `B` gives 0, whose encoding is `A`. The
codes 0x42 and 0x41 are PRESUMED by the spec itself (notes/assumptions/13.md). -/
def Obligations.NonCanonicalTextIsNotRestored : Prop :=
  ∀ s : State, s.phase = .pending → s.RomsHold → s.WithinBounds 1 1 →
    exec (.decode [0x42]) s = .next (s.answered (.decode [0x42]) ⟨0#2, none, [.int 0]⟩) ∧
    exec (.encode [0]) s = .next (s.answered (.encode [0]) ⟨0#2, none, [.char 0x41]⟩)
end

