-- ==== Sys2Proof/Laws/State.lean ====
section
/-! SUPPORT. One lemma per field per update of State, so that no later proof unfolds a record update. -/

namespace Sys2Proof.Machine

open Sys2Proof

variable (s : State)

@[simp] theorem State.markRefused_cfg : s.markRefused.cfg = s.cfg := rfl
@[simp] theorem State.markRefused_alpha : s.markRefused.alpha = s.alpha := rfl
@[simp] theorem State.markRefused_rlut : s.markRefused.rlut = s.rlut := rfl
@[simp] theorem State.markRefused_phase : s.markRefused.phase = s.phase := rfl
@[simp] theorem State.markRefused_reqOp : s.markRefused.reqOp = s.reqOp := rfl
@[simp] theorem State.markRefused_reqIn : s.markRefused.reqIn = s.reqIn := rfl
@[simp] theorem State.markRefused_rspStatus : s.markRefused.rspStatus = s.rspStatus := rfl
@[simp] theorem State.markRefused_rspErrPos : s.markRefused.rspErrPos = s.rspErrPos := rfl
@[simp] theorem State.markRefused_rspOut : s.markRefused.rspOut = s.rspOut := rfl
@[simp] theorem State.markRefused_refusalMark : s.markRefused.refusalMark = true := rfl
@[simp] theorem State.markRefused_schedule : s.markRefused.schedule = s.schedule := rfl
@[simp] theorem State.markRefused_reads : s.markRefused.reads = s.reads := rfl
@[simp] theorem State.markRefused_observation : s.markRefused.observation = s.observation := rfl

@[simp] theorem State.respond_cfg (i : Instr) (r : Response) : (s.respond i r).cfg = s.cfg := rfl
@[simp] theorem State.respond_alpha (i : Instr) (r : Response) : (s.respond i r).alpha = s.alpha := rfl
@[simp] theorem State.respond_rlut (i : Instr) (r : Response) : (s.respond i r).rlut = s.rlut := rfl
@[simp] theorem State.respond_phase (i : Instr) (r : Response) : (s.respond i r).phase = .done := rfl
@[simp] theorem State.respond_reqOp (i : Instr) (r : Response) : (s.respond i r).reqOp = s.reqOp := rfl
@[simp] theorem State.respond_reqIn (i : Instr) (r : Response) : (s.respond i r).reqIn = s.reqIn := rfl
@[simp] theorem State.respond_rspStatus (i : Instr) (r : Response) : (s.respond i r).rspStatus = some r.status := rfl
@[simp] theorem State.respond_rspErrPos (i : Instr) (r : Response) : (s.respond i r).rspErrPos = r.errPos := rfl
@[simp] theorem State.respond_rspOut (i : Instr) (r : Response) : (s.respond i r).rspOut = some r.out := rfl
@[simp] theorem State.respond_refusalMark (i : Instr) (r : Response) : (s.respond i r).refusalMark = s.refusalMark := rfl
@[simp] theorem State.respond_schedule (i : Instr) (r : Response) : (s.respond i r).schedule = s.schedule := rfl
@[simp] theorem State.respond_reads (i : Instr) (r : Response) : (s.respond i r).reads = s.reads := rfl
@[simp] theorem State.respond_observation (i : Instr) (r : Response) : (s.respond i r).observation = s.observation ++ [(i, r)] := rfl

@[simp] theorem State.submit_cfg (r : Request) : (s.submit r).cfg = s.cfg := rfl
@[simp] theorem State.submit_alpha (r : Request) : (s.submit r).alpha = s.alpha := rfl
@[simp] theorem State.submit_rlut (r : Request) : (s.submit r).rlut = s.rlut := rfl
@[simp] theorem State.submit_phase (r : Request) : (s.submit r).phase = .pending := rfl
@[simp] theorem State.submit_reqOp (r : Request) : (s.submit r).reqOp = some (requestOp r) := rfl
@[simp] theorem State.submit_reqIn (r : Request) : (s.submit r).reqIn = some (requestIn r) := rfl
@[simp] theorem State.submit_rspStatus (r : Request) : (s.submit r).rspStatus = none := rfl
@[simp] theorem State.submit_rspErrPos (r : Request) : (s.submit r).rspErrPos = none := rfl
@[simp] theorem State.submit_rspOut (r : Request) : (s.submit r).rspOut = none := rfl
@[simp] theorem State.submit_refusalMark (r : Request) : (s.submit r).refusalMark = s.refusalMark := rfl
@[simp] theorem State.submit_schedule (r : Request) : (s.submit r).schedule = s.schedule := rfl
@[simp] theorem State.submit_reads (r : Request) : (s.submit r).reads = s.reads := rfl
@[simp] theorem State.submit_observation (r : Request) : (s.submit r).observation = s.observation := rfl

@[simp] theorem State.recordRead_cfg (r : Response) : (s.recordRead r).cfg = s.cfg := rfl
@[simp] theorem State.recordRead_alpha (r : Response) : (s.recordRead r).alpha = s.alpha := rfl
@[simp] theorem State.recordRead_rlut (r : Response) : (s.recordRead r).rlut = s.rlut := rfl
@[simp] theorem State.recordRead_phase (r : Response) : (s.recordRead r).phase = s.phase := rfl
@[simp] theorem State.recordRead_reqOp (r : Response) : (s.recordRead r).reqOp = s.reqOp := rfl
@[simp] theorem State.recordRead_reqIn (r : Response) : (s.recordRead r).reqIn = s.reqIn := rfl
@[simp] theorem State.recordRead_rspStatus (r : Response) : (s.recordRead r).rspStatus = s.rspStatus := rfl
@[simp] theorem State.recordRead_rspErrPos (r : Response) : (s.recordRead r).rspErrPos = s.rspErrPos := rfl
@[simp] theorem State.recordRead_rspOut (r : Response) : (s.recordRead r).rspOut = s.rspOut := rfl
@[simp] theorem State.recordRead_refusalMark (r : Response) : (s.recordRead r).refusalMark = s.refusalMark := rfl
@[simp] theorem State.recordRead_schedule (r : Response) : (s.recordRead r).schedule = s.schedule := rfl
@[simp] theorem State.recordRead_reads (r : Response) : (s.recordRead r).reads = s.reads ++ [r] := rfl
@[simp] theorem State.recordRead_observation (r : Response) : (s.recordRead r).observation = s.observation := rfl

@[simp] theorem State.resetBlock_cfg : s.resetBlock.cfg = s.cfg := rfl
@[simp] theorem State.resetBlock_alpha : s.resetBlock.alpha = s.alpha := rfl
@[simp] theorem State.resetBlock_rlut : s.resetBlock.rlut = s.rlut := rfl
@[simp] theorem State.resetBlock_phase : s.resetBlock.phase = .idle := rfl
@[simp] theorem State.resetBlock_reqOp : s.resetBlock.reqOp = none := rfl
@[simp] theorem State.resetBlock_reqIn : s.resetBlock.reqIn = none := rfl
@[simp] theorem State.resetBlock_rspStatus : s.resetBlock.rspStatus = none := rfl
@[simp] theorem State.resetBlock_rspErrPos : s.resetBlock.rspErrPos = none := rfl
@[simp] theorem State.resetBlock_rspOut : s.resetBlock.rspOut = none := rfl
@[simp] theorem State.resetBlock_refusalMark : s.resetBlock.refusalMark = false := rfl
@[simp] theorem State.resetBlock_schedule : s.resetBlock.schedule = s.schedule := rfl
@[simp] theorem State.resetBlock_reads : s.resetBlock.reads = s.reads := rfl
@[simp] theorem State.resetBlock_observation : s.resetBlock.observation = s.observation := rfl

@[simp] theorem State.withSchedule_cfg (ts : List Turn) : (s.withSchedule ts).cfg = s.cfg := rfl
@[simp] theorem State.withSchedule_alpha (ts : List Turn) : (s.withSchedule ts).alpha = s.alpha := rfl
@[simp] theorem State.withSchedule_rlut (ts : List Turn) : (s.withSchedule ts).rlut = s.rlut := rfl
@[simp] theorem State.withSchedule_phase (ts : List Turn) : (s.withSchedule ts).phase = s.phase := rfl
@[simp] theorem State.withSchedule_reqOp (ts : List Turn) : (s.withSchedule ts).reqOp = s.reqOp := rfl
@[simp] theorem State.withSchedule_reqIn (ts : List Turn) : (s.withSchedule ts).reqIn = s.reqIn := rfl
@[simp] theorem State.withSchedule_rspStatus (ts : List Turn) : (s.withSchedule ts).rspStatus = s.rspStatus := rfl
@[simp] theorem State.withSchedule_rspErrPos (ts : List Turn) : (s.withSchedule ts).rspErrPos = s.rspErrPos := rfl
@[simp] theorem State.withSchedule_rspOut (ts : List Turn) : (s.withSchedule ts).rspOut = s.rspOut := rfl
@[simp] theorem State.withSchedule_refusalMark (ts : List Turn) : (s.withSchedule ts).refusalMark = s.refusalMark := rfl
@[simp] theorem State.withSchedule_schedule (ts : List Turn) : (s.withSchedule ts).schedule = ts := rfl
@[simp] theorem State.withSchedule_reads (ts : List Turn) : (s.withSchedule ts).reads = s.reads := rfl
@[simp] theorem State.withSchedule_observation (ts : List Turn) : (s.withSchedule ts).observation = s.observation := rfl

@[simp] theorem State.answered_cfg (i : Instr) (r : Response) : (s.answered i r).cfg = s.cfg := rfl
@[simp] theorem State.answered_alpha (i : Instr) (r : Response) : (s.answered i r).alpha = s.alpha := rfl
@[simp] theorem State.answered_rlut (i : Instr) (r : Response) : (s.answered i r).rlut = s.rlut := rfl
@[simp] theorem State.answered_phase (i : Instr) (r : Response) : (s.answered i r).phase = .done := rfl
@[simp] theorem State.answered_reqOp (i : Instr) (r : Response) : (s.answered i r).reqOp = s.reqOp := rfl
@[simp] theorem State.answered_reqIn (i : Instr) (r : Response) : (s.answered i r).reqIn = s.reqIn := rfl
@[simp] theorem State.answered_rspStatus (i : Instr) (r : Response) : (s.answered i r).rspStatus = some r.status := rfl
@[simp] theorem State.answered_rspErrPos (i : Instr) (r : Response) : (s.answered i r).rspErrPos = r.errPos := rfl
@[simp] theorem State.answered_rspOut (i : Instr) (r : Response) : (s.answered i r).rspOut = some r.out := rfl
@[simp] theorem State.answered_refusalMark (i : Instr) (r : Response) : (s.answered i r).refusalMark = s.refusalMark := rfl
@[simp] theorem State.answered_schedule (i : Instr) (r : Response) : (s.answered i r).schedule = s.schedule := rfl
@[simp] theorem State.answered_reads (i : Instr) (r : Response) : (s.answered i r).reads = s.reads := rfl
@[simp] theorem State.answered_observation (i : Instr) (r : Response) : (s.answered i r).observation = s.observation ++ [(i, r)] := rfl

end Sys2Proof.Machine
end

