-- ==== Sys2Proof/Laws/Codec.lean ====
section
/-! SUPPORT. What a perform step and a turn can do, said once: later proofs cite these and unfold neither `exec` nor
`takeTurn`. -/

namespace Sys2Proof.Machine

open Sys2Proof

theorem withinBound_iff (bound : Option Nat) (n : Nat) :
    withinBound bound n = true ↔ ∀ b, bound = some b → n ≤ b := by
  cases bound <;> simp [withinBound]

theorem refusedShape_eq_not_wf (i : Instr) : refusedShape i = !i.wf := by
  cases i with
  | vlqEncode xs => simp [refusedShape, Instr.wf, bne]
  | vlqDecode ss => cases ss <;> simp [refusedShape, Instr.wf]
  | _ => rfl

theorem refusedShape_iff (i : Instr) :
    refusedShape i = true ↔ (∃ xs, i = .vlqEncode xs ∧ xs.length ≠ 1) ∨ i = .vlqDecode [] := by
  cases i <;> simp [refusedShape]

/-- The codec's test is R33 (b) to (e). -/
theorem refuses_iff (s : State) (i : Instr) :
    refuses s.cfg i (responseTo s i) = true ↔ s.Refused i := by
  have bound (o : Option Nat) (n : Nat) :
      (!withinBound o n) = true ↔ ∃ b, o = some b ∧ b < n := by
    cases o <;> simp [withinBound]
  simp only [refuses, Bool.or_eq_true, refusedShape_iff, bound, State.Refused, or_assoc]

/-- Every instruction concludes with `F` of it (R34). -/
theorem exec_eq (i : Instr) (s : State) : exec i s = conclude i (responseTo s i) s := by
  cases i <;> rfl

theorem respond_eq_answered (s : State) (i : Instr) (r : Response) :
    s.respond i r = s.answered i r := rfl

theorem exec_refused {s : State} {i : Instr} (h : s.Refused i) : exec i s = .next s.markRefused := by
  rw [exec_eq, conclude, if_pos ((refuses_iff s i).2 h)]

theorem exec_answered {s : State} {i : Instr} (h : ¬ s.Refused i) :
    exec i s = .next (s.answered i (responseTo s i)) := by
  rw [exec_eq, conclude, if_neg (mt (refuses_iff s i).1 h), respond_eq_answered]

/-- Everything `exec` can do. -/
theorem exec_cases (i : Instr) (s : State) :
    s.Refused i ∧ exec i s = .next s.markRefused ∨
      ¬ s.Refused i ∧ exec i s = .next (s.answered i (responseTo s i)) := by
  by_cases h : s.Refused i
  · exact .inl ⟨h, exec_refused h⟩
  · exact .inr ⟨h, exec_answered h⟩

/-- An admitted request, by its lengths (R33). -/
theorem not_refused {s : State} {i : Instr} (shape : i.wf = true)
    (bounds : s.WithinBounds (encode i).2.length (responseTo s i).out.length) : ¬ s.Refused i := by
  have shape' : refusedShape i = false := by simp [refusedShape_eq_not_wf, shape]
  intro h
  rw [State.Refused, ← or_assoc, ← refusedShape_iff, shape'] at h
  obtain h | ⟨b, hb, hlt⟩ | ⟨b, hb, hlt⟩ := h
  · cases h
  · exact absurd (bounds.1 b hb) (by omega)
  · exact absurd (bounds.2 b hb) (by omega)

theorem collect_map {α : Type} {f : Element → Option α} {g : α → Element}
    (hfg : ∀ x, f (g x) = some x) (xs : List α) : collect f (xs.map g) = some xs := by
  induction xs with
  | nil => rfl
  | cons x xs ih => simp [collect, hfg, ih]

/-- What `perform` does where the request registers decode (R37). -/
theorem perform_of_decode {s : State} {op : OpCode} {es : List Element} {i : Instr}
    (hop : s.reqOp = some op) (hin : s.reqIn = some es) (hd : decode op es = .ok i) :
    perform s = exec i s := by
  simp [perform, hop, hin, hd]

/-- Code 7 is refused whatever the list (R33 (a)). -/
theorem perform_of_reserved {s : State} (h : s.HoldsReserved) : perform s = .next s.markRefused := by
  obtain ⟨hop, es, hin⟩ := h
  simp [perform, hop, hin, decode]

/-- The turn an empty schedule or a held host turn leaves to the codec. -/
theorem takeTurn_pending {s : State} (h : s.phase = .pending)
    (hs : s.schedule = [] ∨ (∃ r rest, s.schedule = .submit r :: rest) ∨ ∃ rest, s.schedule = .read :: rest) :
    takeTurn s = perform s := by
  obtain hs | ⟨r, rest, hs⟩ | ⟨rest, hs⟩ := hs <;>
    simp [takeTurn, hs, codecTurn, submitTurn, readTurn, h]

theorem takeTurn_codec {s : State} {rest : List Turn} (h : s.phase = .pending)
    (hs : s.schedule = .codec :: rest) : takeTurn s = perform (s.withSchedule rest) := by
  simp [takeTurn, hs, codecTurn, h]

/-- Everything one turn can be, by phase and head of the schedule. -/
theorem takeTurn_cases (s : State) :
    (s.phase = .pending ∧ takeTurn s = perform s) ∨
    (∃ rest, s.phase = .pending ∧ s.schedule = .codec :: rest ∧
      takeTurn s = perform (s.withSchedule rest)) ∨
    (s.phase ≠ .pending ∧ s.schedule = [] ∧ takeTurn s = .next s) ∨
    (∃ rest, s.schedule = .codec :: rest ∧ s.phase ≠ .pending ∧ takeTurn s = .next (s.withSchedule rest)) ∨
    (∃ rest, s.schedule = .wait :: rest ∧ takeTurn s = .next (s.withSchedule rest)) ∨
    (∃ rest, s.schedule = .reset :: rest ∧ takeTurn s = .next (s.withSchedule rest).resetBlock) ∨
    (∃ r rest, s.schedule = .submit r :: rest ∧ s.phase ≠ .pending ∧
      takeTurn s = .next ((s.withSchedule rest).submit r)) ∨
    (∃ rest, s.schedule = .read :: rest ∧ s.phase = .idle ∧ takeTurn s = .fault .readBeforeResponse) ∨
    (∃ rest, s.schedule = .read :: rest ∧ s.phase = .done ∧
      takeTurn s = readResponse (s.withSchedule rest)) := by
  match hs : s.schedule with
  | [] => cases hp : s.phase <;> simp [takeTurn, hs, codecTurn, hp]
  | .codec :: rest => cases hp : s.phase <;> simp [takeTurn, hs, codecTurn, hp]
  | .wait :: rest => simp [takeTurn, hs]
  | .reset :: rest => simp [takeTurn, hs]
  | .submit r :: rest => cases hp : s.phase <;> simp [takeTurn, hs, submitTurn, hp]
  | .read :: rest => cases hp : s.phase <;> simp [takeTurn, hs, readTurn, hp]

theorem readResponse_next {s t : State} (h : readResponse s = .next t) : ∃ r, t = s.recordRead r := by
  unfold readResponse at h
  split at h
  · cases h; exact ⟨_, rfl⟩
  · cases h

/-- Everything a perform step that answers can be. -/
theorem perform_next {s t : State} (h : perform s = .next t) :
    t = s.markRefused ∨ ∃ op es i, s.reqOp = some op ∧ s.reqIn = some es ∧ decode op es = .ok i ∧
      ¬ s.Refused i ∧ t = s.answered i (responseTo s i) := by
  unfold perform at h
  split at h
  · rename_i op es hop hin
    split at h
    · rename_i i hd
      obtain ⟨_, he⟩ | ⟨hr, he⟩ := exec_cases i s <;> rw [he] at h <;> cases h
      · exact .inl rfl
      · exact .inr ⟨op, es, i, hop, hin, hd, hr, rfl⟩
    · cases h; exact .inl rfl
    · cases h
  · cases h

/-- Everything a step that answers can be. -/
theorem step_next {s t : State} (h : step s = .next t) :
    (∃ u, s.phase = .pending ∧ (u = s ∨ ∃ rest, s.schedule = .codec :: rest ∧ u = s.withSchedule rest) ∧
      perform u = .next t) ∨
    (t = s ∧ s.phase ≠ .pending) ∨
    (∃ rest, (s.schedule = .wait :: rest ∨ s.schedule = .codec :: rest) ∧ t = s.withSchedule rest) ∨
    (∃ rest, s.schedule = .reset :: rest ∧ t = (s.withSchedule rest).resetBlock) ∨
    (∃ r rest, s.schedule = .submit r :: rest ∧ s.phase ≠ .pending ∧ t = (s.withSchedule rest).submit r) ∨
    (∃ r rest, s.schedule = .read :: rest ∧ s.phase = .done ∧ t = (s.withSchedule rest).recordRead r) := by
  rw [step] at h
  obtain ⟨hp, ht⟩ | ⟨rest, hp, hs, ht⟩ | ⟨hp, _, ht⟩ | ⟨rest, hs, _, ht⟩ | ⟨rest, hs, ht⟩ | ⟨rest, hs, ht⟩ |
    ⟨r, rest, hs, hp, ht⟩ | ⟨_, _, _, ht⟩ | ⟨rest, hs, hp, ht⟩ := takeTurn_cases s <;> rw [ht] at h
  · exact .inl ⟨s, hp, .inl rfl, h⟩
  · exact .inl ⟨_, hp, .inr ⟨rest, hs, rfl⟩, h⟩
  · cases h; exact .inr (.inl ⟨rfl, hp⟩)
  · cases h; exact .inr (.inr (.inl ⟨rest, .inr hs, rfl⟩))
  · cases h; exact .inr (.inr (.inl ⟨rest, .inl hs, rfl⟩))
  · cases h; exact .inr (.inr (.inr (.inl ⟨rest, hs, rfl⟩)))
  · cases h; exact .inr (.inr (.inr (.inr (.inl ⟨r, rest, hs, hp, rfl⟩))))
  · cases h
  · obtain ⟨r, rfl⟩ := readResponse_next h
    exact .inr (.inr (.inr (.inr (.inr ⟨r, rest, hs, hp, rfl⟩))))

/-- `F` reads the ROMs of the state and nothing else of it (R34). -/
theorem responseTo_congr {s u : State} (ha : u.alpha = s.alpha) (hr : u.rlut = s.rlut) (i : Instr) :
    responseTo u i = responseTo s i := by
  cases i <;> simp [responseTo, ha, hr]

theorem refused_congr {s u : State} (hc : u.cfg = s.cfg) (ha : u.alpha = s.alpha) (hr : u.rlut = s.rlut)
    (i : Instr) : u.Refused i ↔ s.Refused i := by
  simp [State.Refused, hc, responseTo_congr ha hr]

theorem withinBounds_mono {s : State} {a b c d : Nat} (h : s.WithinBounds a b) (hc : c ≤ a) (hd : d ≤ b) :
    s.WithinBounds c d :=
  ⟨fun n hn => hc.trans (h.1 n hn), fun n hn => hd.trans (h.2 n hn)⟩

/-- An admitted request of an allowed shape is answered with its response. -/
theorem exec_of_response {s : State} {i : Instr} {r : Response} (hr : responseTo s i = r) (shape : i.wf = true)
    (bounds : s.WithinBounds (encode i).2.length r.out.length) : exec i s = .next (s.answered i r) := by
  subst hr; exact exec_answered (not_refused shape bounds)

theorem steps_succ {n : Nat} {s t : State} (h : step s = .next t) : steps (n + 1) s = steps n t := by
  simp [steps, h]

/-- The steps are those of `core`, the machine the host sees. -/
theorem steps_eq_run (n : Nat) (s : State) : steps n s = core.run n s := by
  induction n generalizing s with
  | zero => rfl
  | succ n ih =>
    simp only [steps, Host.Core.run, core]
    cases step s with
    | next t => exact ih t
    | fault r => rfl
    | refused r => rfl

end Sys2Proof.Machine
end

