-- ==== Sys2Proof/Laws/Framing.lean ====
section
/-! SUPPORT. What the framer computes (spec 42_framer.md R82, R83): on a stream of complete VLQs followed by a tail whose
continuation flags are all set. Every stream is one (`stream_cases`). -/

namespace Sys2Proof.Machine

open Sys2Proof

/-- A VLQ is sextets with the flag set and one last sextet with the flag clear (R58). -/
theorem vlqInvariant_iff (c : List Sextet) :
    VlqInvariant c ↔ ∃ body last, c = body ++ [last] ∧ (∀ x ∈ body, contFlag x = true) ∧ contFlag last = false := by
  constructor
  · rintro ⟨hne, h⟩
    refine ⟨c.dropLast, c.getLast hne, (List.dropLast_append_getLast hne).symm, ?_, ?_⟩
    · intro x hx
      obtain ⟨k, hk, rfl⟩ := List.getElem_of_mem hx
      rw [List.length_dropLast] at hk
      rw [List.getElem_dropLast, h k (by omega)]
      simp; omega
    · have hpos := List.length_pos_of_ne_nil hne
      rw [List.getLast_eq_getElem, h _ (by omega)]
      simp; omega
  · rintro ⟨body, last, rfl, hbody, hlast⟩
    refine ⟨by simp, fun k hk => ?_⟩
    rw [List.length_append, List.length_singleton] at *
    by_cases hk' : k < body.length
    · rw [List.getElem_append_left hk', hbody _ (List.getElem_mem hk')]
      simp; omega
    · have : k = body.length := by omega
      subst this
      simp [hlast]

theorem frameFrom_chunk (body : List Sextet) (last : Sextet) (rest : List Sextet)
    (out : List (List Sextet)) (cur : List Sextet) (start i : Nat)
    (hbody : ∀ x ∈ body, contFlag x = true) (hlast : contFlag last = false) :
    frameFrom out cur start i (body ++ last :: rest) =
      frameFrom (out ++ [cur ++ (body ++ [last])]) [] (i + body.length + 1) (i + body.length + 1) rest := by
  induction body generalizing cur i with
  | nil => simp [frameFrom, hlast]
  | cons x body ih =>
    simp only [List.mem_cons, forall_eq_or_imp] at hbody
    simp only [List.cons_append, frameFrom, hbody.1, if_true]
    rw [ih _ _ hbody.2]
    simp [Nat.add_assoc, Nat.add_comm, Nat.add_left_comm]

theorem frameFrom_tail (tail : List Sextet) (out : List (List Sextet)) (cur : List Sextet) (start i : Nat)
    (htail : ∀ x ∈ tail, contFlag x = true) :
    frameFrom out cur start i tail =
      if (cur ++ tail).isEmpty then .ok out else .error (.unterminatedVlq start) := by
  induction tail generalizing cur i with
  | nil => simp [frameFrom]
  | cons x tail ih =>
    simp only [List.mem_cons, forall_eq_or_imp] at htail
    simp [frameFrom, htail.1, ih _ _ htail.2]

theorem frameFrom_chunks (chunks : List (List Sextet)) (tail : List Sextet) (out : List (List Sextet)) (i : Nat)
    (hchunks : ∀ c ∈ chunks, VlqInvariant c) (htail : ∀ x ∈ tail, contFlag x = true) :
    frameFrom out [] i i (chunks.flatten ++ tail) =
      if tail.isEmpty then .ok (out ++ chunks)
      else .error (.unterminatedVlq (i + chunks.flatten.length)) := by
  induction chunks generalizing out i with
  | nil => simpa using frameFrom_tail tail out [] i i htail
  | cons c chunks ih =>
    simp only [List.mem_cons, forall_eq_or_imp] at hchunks
    obtain ⟨body, last, rfl, hbody, hlast⟩ := (vlqInvariant_iff c).1 hchunks.1
    have hstream : (List.flatten ((body ++ [last]) :: chunks)) ++ tail =
        body ++ last :: (chunks.flatten ++ tail) := by simp
    rw [hstream, frameFrom_chunk body last _ out [] i i hbody hlast, ih _ _ hchunks.2]
    simp [Nat.add_assoc, Nat.add_comm, Nat.add_left_comm]

/-- A stream of complete VLQs is cut at their ends. -/
theorem frame_chunks {chunks : List (List Sextet)} (hchunks : ∀ c ∈ chunks, VlqInvariant c) :
    frame chunks.flatten = .ok chunks := by
  simpa [frame] using frameFrom_chunks chunks [] [] 0 hchunks (by simp)

/-- An unclosed tail is reported at its first sextet (R83). -/
theorem frame_unterminated {chunks : List (List Sextet)} {tail : List Sextet}
    (hchunks : ∀ c ∈ chunks, VlqInvariant c) (hne : tail ≠ []) (htail : ∀ x ∈ tail, contFlag x = true) :
    frame (chunks.flatten ++ tail) = .error (.unterminatedVlq chunks.flatten.length) := by
  simpa [frame, hne] using frameFrom_chunks chunks tail [] 0 hchunks htail

theorem stream_of_clear_end (ss : List Sextet) (h : ∀ hne : ss ≠ [], contFlag (ss.getLast hne) = false) :
    ∃ chunks : List (List Sextet), ss = chunks.flatten ∧ ∀ c ∈ chunks, VlqInvariant c := by
  have key (body : List Sextet) (ss : List Sextet) (hbody : ∀ x ∈ body, contFlag x = true)
      (h : ∀ hne : body ++ ss ≠ [], contFlag ((body ++ ss).getLast hne) = false) :
      ∃ chunks : List (List Sextet), body ++ ss = chunks.flatten ∧ ∀ c ∈ chunks, VlqInvariant c := by
    induction ss generalizing body with
    | nil =>
      by_cases hb : body = []
      · exact ⟨[], by simp [hb], by simp⟩
      · have := h (by simpa using hb)
        simp only [List.append_nil] at this
        rw [hbody _ (List.getLast_mem hb)] at this
        cases this
    | cons x ss ih =>
      cases hx : contFlag x with
      | true =>
        have := ih (body ++ [x]) (by
          intro y hy
          rcases List.mem_append.1 hy with hy | hy
          · exact hbody y hy
          · simpa [List.mem_singleton.1 hy] using hx) (by simpa using h)
        simpa using this
      | false =>
        have hss : ∀ hne : ss ≠ [], contFlag (ss.getLast hne) = false := by
          intro hne
          have := h (by simp)
          simpa [List.getLast_append, List.getLast_cons hne] using this
        obtain ⟨chunks, hc, hinv⟩ := ih [] (by simp) (by simpa using hss)
        refine ⟨(body ++ [x]) :: chunks, by simpa using hc, ?_⟩
        intro c hcm
        rcases List.mem_cons.1 hcm with rfl | hcm
        · exact (vlqInvariant_iff _).2 ⟨body, x, rfl, hbody, hx⟩
        · exact hinv c hcm
  simpa using key [] ss (by simp) (by simpa using h)

/-- Every stream is complete VLQs followed by a tail of sextets with the flag set. -/
theorem stream_cases (ss : List Sextet) :
    ∃ (chunks : List (List Sextet)) (tail : List Sextet), ss = chunks.flatten ++ tail ∧
      (∀ c ∈ chunks, VlqInvariant c) ∧ ∀ x ∈ tail, contFlag x = true := by
  induction hn : ss.length using Nat.strong_induction_on generalizing ss with
  | _ n ih =>
    by_cases h : ∀ hne : ss ≠ [], contFlag (ss.getLast hne) = false
    · obtain ⟨chunks, hc, hinv⟩ := stream_of_clear_end ss h
      exact ⟨chunks, [], by simpa using hc, hinv, by simp⟩
    · obtain ⟨hne, hlast⟩ := not_forall.1 h
      have hlen := List.length_pos_of_ne_nil hne
      obtain ⟨chunks, tail, hss, hinv, htail⟩ :=
        ih ss.dropLast.length (by rw [List.length_dropLast]; omega) ss.dropLast rfl
      refine ⟨chunks, tail ++ [ss.getLast hne], ?_, hinv, ?_⟩
      · rw [← List.append_assoc, ← hss, List.dropLast_append_getLast hne]
      · intro x hx
        rcases List.mem_append.1 hx with hx | hx
        · exact htail x hx
        · simpa [List.mem_singleton.1 hx] using hlast

theorem serialiseChunk_body (body : List Sextet) (last : Sextet) :
    serialiseChunk (body ++ [last]) = body.map (frameElement false) ++ [frameElement true last] := by
  induction body with
  | nil => rfl
  | cons x body ih =>
    cases body with
    | nil => rfl
    | cons y body => simpa [serialiseChunk] using ih

/-- Every serialised element of complete VLQs has `LAST = ~sextet[5]` (R63, R85 (e)). -/
theorem serialise_chunks {chunks : List (List Sextet)} (hchunks : ∀ c ∈ chunks, VlqInvariant c) :
    serialise chunks = chunks.flatten.map fun x => frameElement (!contFlag x) x := by
  induction chunks with
  | nil => rfl
  | cons c chunks ih =>
    simp only [List.mem_cons, forall_eq_or_imp] at hchunks
    obtain ⟨body, last, rfl, hbody, hlast⟩ := (vlqInvariant_iff c).1 hchunks.1
    have hmap : body.map (frameElement false) = body.map fun x => frameElement (!contFlag x) x :=
      List.map_congr_left fun x hx => by simp [hbody x hx]
    simp [serialise, ih hchunks.2, serialiseChunk_body, hmap, hlast]

end Sys2Proof.Machine
end

