-- ==== Sys2Proof/Laws/Mapper.lean ====
section
/-! SUPPORT. What the base64 mapper computes (spec 41_base64_map.md R77, R78, R79). -/

namespace Sys2Proof.Machine

open Sys2Proof

theorem b64Map_eq_map (rom : AlphaRom) (ss : List Sextet) : b64Map rom ss = ss.map (readAlpha rom) := by
  induction ss with
  | nil => rfl
  | cons x xs ih => simp [b64Map, ih]

theorem b64UnmapFrom_valid (rom : RlutRom) (cs : List CharCode) (i : Nat)
    (h : ∀ c ∈ cs, (readRlut rom c).valid = true) :
    b64UnmapFrom rom i cs = .ok (cs.map fun c => (readRlut rom c).index) := by
  induction cs generalizing i with
  | nil => rfl
  | cons c cs ih =>
    simp only [List.mem_cons, forall_eq_or_imp] at h
    simp [b64UnmapFrom, h.1, ih (i + 1) h.2]

theorem b64UnmapFrom_invalid (rom : RlutRom) (good : List CharCode) (c : CharCode) (rest : List CharCode)
    (i : Nat) (hgood : ∀ d ∈ good, (readRlut rom d).valid = true) (hc : (readRlut rom c).valid = false) :
    b64UnmapFrom rom i (good ++ c :: rest) = .error (.invalidCharacter (i + good.length)) := by
  induction good generalizing i with
  | nil => simp [b64UnmapFrom, hc]
  | cons d good ih =>
    simp only [List.mem_cons, forall_eq_or_imp] at hgood
    simp [b64UnmapFrom, hgood.1, ih (i + 1) hgood.2]
    omega

theorem b64Unmap_valid {rom : RlutRom} {cs : List CharCode}
    (h : ∀ c ∈ cs, (readRlut rom c).valid = true) :
    b64Unmap rom cs = .ok (cs.map fun c => (readRlut rom c).index) :=
  b64UnmapFrom_valid rom cs 0 h

/-- The first character outside the alphabet is the one reported (R79). -/
theorem b64Unmap_invalid {rom : RlutRom} {good : List CharCode} {c : CharCode} (rest : List CharCode)
    (hgood : ∀ d ∈ good, (readRlut rom d).valid = true) (hc : (readRlut rom c).valid = false) :
    b64Unmap rom (good ++ c :: rest) = .error (.invalidCharacter good.length) := by
  simpa [b64Unmap] using b64UnmapFrom_invalid rom good c rest 0 hgood hc

/-- A text is either all alphabet characters, or has a first character outside the alphabet. -/
theorem text_cases (rom : RlutRom) (cs : List CharCode) :
    (∀ c ∈ cs, (readRlut rom c).valid = true) ∨
      ∃ good c rest, cs = good ++ c :: rest ∧ (∀ d ∈ good, (readRlut rom d).valid = true) ∧
        (readRlut rom c).valid = false := by
  induction cs with
  | nil => exact .inl (by simp)
  | cons c cs ih =>
    cases hc : (readRlut rom c).valid with
    | false => exact .inr ⟨[], c, cs, rfl, by simp, hc⟩
    | true =>
      obtain h | ⟨good, d, rest, rfl, hgood, hd⟩ := ih
      · exact .inl (by simpa [hc] using h)
      · exact .inr ⟨c :: good, d, rest, rfl, by simpa [hc] using hgood, hd⟩

end Sys2Proof.Machine
end

