-- ==== Sys2Proof/Laws/PerInstr.lean ====
section
/-! SUPPORT. Facts about every instruction as syntax, one lemma per constructor. -/

namespace Sys2Proof.Laws.OperandTyped

open Sys2Proof

/-- The encoded operand of an instruction is a list of its operation's input type (spec 30_encoding.md R54), so every
submission of an operation has the types R35 asks for. -/
def Statement (i : Instr) : Prop :=
  ∃ t, inputType (encode i).1 = some t ∧ ∀ e ∈ (encode i).2, e.type = t

theorem encode (xs : List IntWord) : Statement (.encode xs) :=
  ⟨.int, rfl, by simp [Sys2Proof.encode, Element.type]⟩

theorem decode (cs : List CharCode) : Statement (.decode cs) :=
  ⟨.char, rfl, by simp [Sys2Proof.encode, Element.type]⟩

theorem vlqEncode (xs : List IntWord) : Statement (.vlqEncode xs) :=
  ⟨.int, rfl, by simp [Sys2Proof.encode, Element.type]⟩

theorem vlqDecode (ss : List Sextet) : Statement (.vlqDecode ss) :=
  ⟨.sextet, rfl, by simp [Sys2Proof.encode, Element.type]⟩

theorem base64Encode (ss : List Sextet) : Statement (.base64Encode ss) :=
  ⟨.sextet, rfl, by simp [Sys2Proof.encode, Element.type]⟩

theorem base64Decode (cs : List CharCode) : Statement (.base64Decode cs) :=
  ⟨.char, rfl, by simp [Sys2Proof.encode, Element.type]⟩

theorem split (ss : List Sextet) : Statement (.split ss) :=
  ⟨.sextet, rfl, by simp [Sys2Proof.encode, Element.type]⟩

end Sys2Proof.Laws.OperandTyped
end

