-- ==== Sys2Proof/Laws/Vlq.lean ====
section
/-! SUPPORT. The encoder and the decoder read as numbers (spec 40_vlq_encode.md R70 to R74, 43_vlq_decode.md R88, R89). -/

namespace Sys2Proof.Machine

open Sys2Proof

/-- The fields of an encoded head (R56, R71, R73). -/
theorem head_fields (more : Bool) (mag : IntWord) (sgn : Bool) :
    contFlag (withContinuation more (headData mag sgn)) = more ∧
    signFlag (withContinuation more (headData mag sgn)) = sgn ∧
    headPayload (withContinuation more (headData mag sgn)) = mag.extractLsb' 0 4 := by
  unfold headData
  generalize mag.extractLsb' 0 4 = p
  revert p more sgn
  decide +kernel

/-- The fields of an encoded tail (R57, R72, R73). -/
theorem tail_fields (more : Bool) (mag : IntWord) :
    contFlag (withContinuation more (tailData mag)) = more ∧
    tailPayload (withContinuation more (tailData mag)) = mag.extractLsb' 0 5 := by
  unfold tailData
  generalize mag.extractLsb' 0 5 = p
  revert p more
  decide +kernel

theorem extract_four (mag : IntWord) : (mag.extractLsb' 0 4).toNat = mag.toNat % 16 := by
  simp [BitVec.extractLsb'_toNat]

theorem extract_five (mag : IntWord) : (mag.extractLsb' 0 5).toNat = mag.toNat % 32 := by
  simp [BitVec.extractLsb'_toNat]

theorem shift_four (mag : IntWord) : (mag >>> 4).toNat = mag.toNat / 16 := by
  simp [BitVec.toNat_ushiftRight, Nat.shiftRight_eq_div_pow]

theorem shift_five (mag : IntWord) : (mag >>> 5).toNat = mag.toNat / 32 := by
  simp [BitVec.toNat_ushiftRight, Nat.shiftRight_eq_div_pow]

theorem eq_zero_iff (mag : IntWord) : mag = 0 ↔ mag.toNat = 0 := by
  constructor
  · rintro rfl; rfl
  · intro h; exact BitVec.eq_of_toNat_eq (by simpa using h)

/-- `SGN` is the sign and `MAG` the absolute value (R70). -/
theorem signOf_eq (v : IntWord) : signOf v = decide (v.toInt < 0) := by
  rw [signOf, BitVec.toInt_eq_msb_cond, ← BitVec.msb_eq_getLsbD_last v]
  have := v.isLt
  cases h : v.msb with
  | false => simp
  | true => simp; omega

theorem magnitudeOf_toNat (v : IntWord) : (magnitudeOf v).toNat = intMagnitude v := by
  have hlt := v.isLt
  have hs := signOf_eq v
  have hm := BitVec.toInt_eq_toNat_cond v
  unfold magnitudeOf neg32 intMagnitude
  cases h : signOf v with
  | true =>
    rw [h] at hs
    simp only [if_true, BitVec.toNat_neg]
    have : v.toInt < 0 := by simpa using hs.symm
    split at hm <;> omega
  | false =>
    rw [h] at hs
    have : ¬ v.toInt < 0 := by simpa using hs.symm
    simp only [Bool.false_eq_true, if_false]
    split at hm <;> omega

theorem intMagnitude_le (v : IntWord) : intMagnitude v ≤ 2 ^ 31 := by
  have := BitVec.toInt_lt (x := v)
  have := BitVec.le_toInt (x := v)
  simp [intMagnitude] at *
  omega

/-- The tail loop's sextets as a number. -/
theorem tailSum_encodeTails (fuel k : Nat) (hk : 1 ≤ k) (mag : IntWord) (h : mag.toNat < 2 ^ (5 * fuel)) :
    tailSum k (encodeTails fuel mag) = mag.toNat * 2 ^ (5 * k - 1) := by
  induction fuel generalizing k mag with
  | zero =>
    have : mag.toNat = 0 := by simpa using h
    simp [encodeTails, tailSum, this]
  | succ fuel ih =>
    by_cases h0 : mag = 0
    · simp [encodeTails, h0, tailSum]
    · have hrest : (mag >>> 5).toNat < 2 ^ (5 * fuel) := by
        rw [shift_five]
        have : 2 ^ (5 * (fuel + 1)) = 2 ^ (5 * fuel) * 32 := by rw [Nat.mul_add, pow_add]; norm_num
        omega
      have hpow : 2 ^ (5 * (k + 1) - 1) = 2 ^ (5 * k - 1) * 32 := by
        rw [show 5 * (k + 1) - 1 = 5 * k - 1 + 5 by omega, pow_add]; norm_num
      rw [encodeTails, if_neg h0, tailSum, (tail_fields _ _).2, extract_five,
        ih (k + 1) (by omega) (mag >>> 5) hrest, shift_five, hpow]
      have := Nat.mod_add_div mag.toNat 32
      calc mag.toNat % 32 * 2 ^ (5 * k - 1) + mag.toNat / 32 * (2 ^ (5 * k - 1) * 32)
          = (mag.toNat % 32 + 32 * (mag.toNat / 32)) * 2 ^ (5 * k - 1) := by ring
        _ = mag.toNat * 2 ^ (5 * k - 1) := by rw [this]

theorem encodeTails_length_le (fuel n : Nat) (hn : n ≤ fuel) (mag : IntWord)
    (h : mag.toNat < 2 ^ (5 * fuel)) :
    (encodeTails fuel mag).length ≤ n ↔ mag.toNat < 2 ^ (5 * n) := by
  induction fuel generalizing n mag with
  | zero => have : n = 0 := by omega
            subst this; simpa [encodeTails] using h
  | succ fuel ih =>
    by_cases h0 : mag = 0
    · have := Nat.two_pow_pos (5 * n)
      simp [encodeTails, h0]
    · have hpos : mag.toNat ≠ 0 := fun hz => h0 ((eq_zero_iff mag).2 hz)
      rw [encodeTails, if_neg h0, List.length_cons]
      cases n with
      | zero => simp; omega
      | succ n =>
        have e1 : 2 ^ (5 * (fuel + 1)) = 2 ^ (5 * fuel) * 32 := by rw [Nat.mul_add, pow_add]; norm_num
        have e2 : 2 ^ (5 * (n + 1)) = 2 ^ (5 * n) * 32 := by rw [Nat.mul_add, pow_add]; norm_num
        have := ih n (by omega) (mag >>> 5) (by rw [shift_five]; omega)
        rw [shift_five] at this
        rw [Nat.add_le_add_iff_right, this]
        omega

/-- Payload `j` of the tail loop is the `j`-th 5-bit group of the magnitude it starts with (R72). -/
theorem encodeTails_payload (fuel j : Nat) (mag : IntWord) (h : j < (encodeTails fuel mag).length) :
    (tailPayload (encodeTails fuel mag)[j]).toNat = mag.toNat / 2 ^ (5 * j) % 32 := by
  induction fuel generalizing j mag with
  | zero => simp [encodeTails] at h
  | succ fuel ih =>
    by_cases h0 : mag = 0
    · simp [encodeTails, h0] at h
    · simp only [encodeTails, if_neg h0] at h ⊢
      cases j with
      | zero => simp [(tail_fields _ _).2]
      | succ j =>
        rw [List.getElem_cons_succ, ih j (mag >>> 5) (by simpa using h), shift_five,
          Nat.div_div_eq_div_mul, show 2 ^ (5 * (j + 1)) = 32 * 2 ^ (5 * j) by ring]

/-- Continuation flags of the tail loop: set on every sextet but the last (R73). -/
theorem encodeTails_cont (fuel j : Nat) (mag : IntWord) (hm : mag.toNat < 2 ^ (5 * fuel))
    (h : j < (encodeTails fuel mag).length) :
    contFlag (encodeTails fuel mag)[j] = decide (j + 1 < (encodeTails fuel mag).length) := by
  induction fuel generalizing j mag with
  | zero => simp [encodeTails] at h
  | succ fuel ih =>
    by_cases h0 : mag = 0
    · simp [encodeTails, h0] at h
    · have hrest : (mag >>> 5).toNat < 2 ^ (5 * fuel) := by
        rw [shift_five]
        have : 2 ^ (5 * (fuel + 1)) = 2 ^ (5 * fuel) * 32 := by rw [Nat.mul_add, pow_add]; norm_num
        omega
      simp only [encodeTails, if_neg h0] at h ⊢
      cases j with
      | zero =>
        have h0le := encodeTails_length_le fuel 0 (by omega) (mag >>> 5) hrest
        have hz := eq_zero_iff (mag >>> 5)
        simp only [List.getElem_cons_zero, (tail_fields _ _).1, List.length_cons]
        by_cases hr : mag >>> 5 = 0
        · have hlen : (encodeTails fuel (mag >>> 5)).length = 0 := by
            have := h0le.2 (by rw [hz.1 hr]; exact Nat.two_pow_pos _)
            omega
          have hmore : (mag >>> 5 != 0) = false := by simpa using hr
          rw [hmore]
          exact (decide_eq_false (by omega)).symm
        · have hne : (mag >>> 5).toNat ≠ 0 := fun hzz => hr (hz.2 hzz)
          have hlen : (encodeTails fuel (mag >>> 5)).length ≠ 0 := by
            intro hl
            have := h0le.1 (by omega)
            simp at this; omega
          have : (mag >>> 5 != 0) = true := by simpa using hr
          rw [this]; simp; omega
      | succ j =>
        rw [List.getElem_cons_succ, ih j (mag >>> 5) hrest (by simpa using h)]
        simp

theorem encode_rest_lt (v : IntWord) : (magnitudeOf v >>> 4).toNat < 2 ^ (5 * maxTails) := by
  rw [shift_four]
  have := (magnitudeOf v).isLt
  simp [maxTails] at *
  omega

/-- The encoded length is `n(M)` (R59 (a), R74). -/
theorem vlqEncode_length (v : IntWord) : (vlqEncode v).length = encodedLength (intMagnitude v) := by
  have hm := magnitudeOf_toNat v
  have hr := encode_rest_lt v
  have hle (n : Nat) (hn : n ≤ 6) := encodeTails_length_le maxTails n hn (magnitudeOf v >>> 4) hr
  simp only [shift_four, hm] at hle
  have h0 := hle 0 (by omega)
  have h1 := hle 1 (by omega)
  have h2 := hle 2 (by omega)
  have h3 := hle 3 (by omega)
  have h4 := hle 4 (by omega)
  have h5 := hle 5 (by omega)
  have h6 := hle 6 (by omega)
  have hM := intMagnitude_le v
  simp only [vlqEncode, List.length_cons, encodedLength]
  generalize (encodeTails maxTails (magnitudeOf v >>> 4)).length = L at *
  generalize intMagnitude v = M at *
  norm_num at h1 h2 h3 h4 h5 h6 hM ⊢
  split_ifs <;> omega

theorem vlqEncode_invariant (v : IntWord) : VlqInvariant (vlqEncode v) := by
  have hr := encode_rest_lt v
  refine ⟨List.cons_ne_nil _ _, fun k hk => ?_⟩
  cases k with
  | zero =>
    have h0 := encodeTails_length_le maxTails 0 (by simp [maxTails]) (magnitudeOf v >>> 4) hr
    have hz := eq_zero_iff (magnitudeOf v >>> 4)
    simp only [vlqEncode, List.getElem_cons_zero, (head_fields _ _ _).1, List.length_cons]
    by_cases hrest : (magnitudeOf v >>> 4).toNat = 0
    · have hlen : (encodeTails maxTails (magnitudeOf v >>> 4)).length = 0 := by
        have := h0.2 (by rw [hrest]; exact Nat.two_pow_pos _)
        omega
      have hmore : (magnitudeOf v >>> 4 != 0) = false := by simpa using hz.2 hrest
      rw [hmore]
      exact (decide_eq_false (by omega)).symm
    · have hne : (magnitudeOf v >>> 4 != 0) = true := by simpa using mt hz.1 hrest
      rw [hne]
      have : ¬ (encodeTails maxTails (magnitudeOf v >>> 4)).length ≤ 0 := fun hl => by
        have := h0.1 hl; simp at this; omega
      simp; omega
  | succ k =>
    simp only [vlqEncode, List.getElem_cons_succ, List.length_cons] at hk ⊢
    rw [encodeTails_cont maxTails k _ hr (by omega)]
    simp

/-- The encoder's exact magnitude (R57, R70). -/
theorem mfull_vlqEncode (v : IntWord) : mfull (vlqEncode v) = intMagnitude v := by
  rw [vlqEncode, mfull, (head_fields _ _ _).2.2, extract_four,
    tailSum_encodeTails maxTails 1 (by omega) _ (encode_rest_lt v), shift_four, magnitudeOf_toNat]
  omega

theorem sign_vlqEncode (v : IntWord) (h : 0 < (vlqEncode v).length) :
    signFlag (vlqEncode v)[0] = decide (v.toInt < 0) := by
  simp [vlqEncode, (head_fields _ _ _).2.1, signOf_eq]

/-- The tails' number in units of their first position's weight. -/
theorem tailSum_shift (k : Nat) (hk : 1 ≤ k) (xs : List Sextet) :
    tailSum (k + 1) xs = 32 * tailSum k xs := by
  induction xs generalizing k with
  | nil => rfl
  | cons x xs ih =>
    rw [tailSum, tailSum, ih (k + 1) (by omega), show 5 * (k + 1) - 1 = 5 * k - 1 + 5 by omega, pow_add]
    ring

theorem payload_setWidth {w : Nat} (p : BitVec w) : p.setWidth 32 = BitVec.ofNat 32 p.toNat :=
  BitVec.eq_of_toNat_eq (by simp)

/-- The OR of R87 falls on the zeros the shift makes, so it is an addition (R88). -/
theorem shift_five_or (a : IntWord) (p : BitVec 5) : (a <<< 5) ||| p.setWidth 32 = a * 32#32 + p.setWidth 32 := by
  rw [← BitVec.add_eq_or_of_and_eq_zero]
  · congr 1
    exact BitVec.eq_of_toNat_eq (by simp [BitVec.toNat_shiftLeft, Nat.shiftLeft_eq])
  · ext i hi
    by_cases h : i < 5
    · simp [h]
    · simp [BitVec.getLsbD_of_ge p i (by omega)]

theorem shift_four_or (a : IntWord) (p : BitVec 4) : (a <<< 4) ||| p.setWidth 32 = a * 16#32 + p.setWidth 32 := by
  rw [← BitVec.add_eq_or_of_and_eq_zero]
  · congr 1
    exact BitVec.eq_of_toNat_eq (by simp [BitVec.toNat_shiftLeft, Nat.shiftLeft_eq])
  · ext i hi
    by_cases h : i < 4
    · simp [h]
    · simp [BitVec.getLsbD_of_ge p i (by omega)]

theorem tailAccumulator_eq (xs : List Sextet) :
    tailAccumulator xs * 16#32 = BitVec.ofNat 32 (tailSum 1 xs) := by
  induction xs with
  | nil => rfl
  | cons x xs ih =>
    rw [tailAccumulator, shift_five_or, tailSum, tailSum_shift 1 (by omega), BitVec.ofNat_add, BitVec.ofNat_mul,
      BitVec.ofNat_mul, ← ih, payload_setWidth]
    norm_num
    ring

/-- The accumulator after the head step is `Mfull mod 2^32` (R88). -/
theorem headAccumulator_eq (head : Sextet) (tails : List Sextet) :
    headAccumulator head tails = BitVec.ofNat 32 (mfull (head :: tails)) := by
  rw [headAccumulator, shift_four_or, tailAccumulator_eq, mfull, BitVec.ofNat_add, payload_setWidth, add_comm]

/-- The decoder's value in exact arithmetic (R89). -/
theorem vlqDecode_eq (ss : List Sextet) : vlqDecode ss = decodedPattern ss := by
  cases ss with
  | nil => rfl
  | cons head tails =>
    simp only [vlqDecode, decodedPattern, headAccumulator_eq, neg32]
    split
    · exact BitVec.eq_of_toNat_eq (by simp [BitVec.toNat_neg])
    · exact BitVec.eq_of_toNat_eq (by simp)

/-- The pattern of a value from its sign and magnitude. -/
theorem pattern_of_magnitude (v : IntWord) :
    (if v.toInt < 0 then BitVec.ofNat 32 (2 ^ 32 - intMagnitude v % 2 ^ 32)
      else BitVec.ofNat 32 (intMagnitude v % 2 ^ 32)) = v := by
  have hv := v.isLt
  have hm := intMagnitude_le v
  have hc := BitVec.toInt_eq_toNat_cond v
  apply BitVec.eq_of_toNat_eq
  unfold intMagnitude at *
  split_ifs <;> simp only [BitVec.toNat_ofNat] <;> split at hc <;> omega

/-- The decoder inverts the encoder (R91). -/
theorem vlqDecode_vlqEncode (v : IntWord) : vlqDecode (vlqEncode v) = v := by
  have hs := sign_vlqEncode v (by simp [vlqEncode])
  have hm := mfull_vlqEncode v
  rw [vlqDecode_eq]
  obtain ⟨head, tails, heq⟩ : ∃ head tails, vlqEncode v = head :: tails := ⟨_, _, rfl⟩
  simp only [heq, List.getElem_cons_zero] at hs
  rw [heq] at hm ⊢
  rw [decodedPattern, hm, hs]
  simpa using pattern_of_magnitude v

end Sys2Proof.Machine
end

