-- ==== Sys2Proof/Machine/Notation.lean ====
section
/-! DEFINITION. The request notation of spec 30_encoding.md R68: reading a request line, and writing a response. Text is a list of
characters. What the rule's prose leaves open (spacing, digit case, the number of digits) is in notes/assumptions/16.md. -/

namespace Sys2Proof.Machine

open Sys2Proof

/-! ### Reading a request -/

/-- The value of a decimal digit. -/
def decimalDigit (c : Char) : Option Nat :=
  if '0'.toNat ≤ c.toNat ∧ c.toNat ≤ '9'.toNat then some (c.toNat - '0'.toNat) else none

/-- The value of a hexadecimal digit. -/
def hexDigit (c : Char) : Option Nat :=
  if 'A'.toNat ≤ c.toNat ∧ c.toNat ≤ 'F'.toNat then some (c.toNat - 'A'.toNat + 10)
  else if 'a'.toNat ≤ c.toNat ∧ c.toNat ≤ 'f'.toNat then some (c.toNat - 'a'.toNat + 10)
  else decimalDigit c

/-- The number that continues `acc` over the digits that follow, and the rest of the text. -/
def readDigits (base : Nat) (digit : Char → Option Nat) (acc : Nat) : List Char → Nat × List Char
  | [] => (acc, [])
  | c :: cs =>
    match digit c with
    | some d => readDigits base digit (acc * base + d) cs
    | none => (acc, c :: cs)

/-- A number of at least one digit, below `bound`, and the rest of the text. Any number of digits is taken, leading zeros
among them (DESIGN CHOICE, notes/assumptions/16.md). -/
def readNumber (base : Nat) (digit : Char → Option Nat) (bound : Nat) (cs : List Char) : Option (Nat × List Char) :=
  match cs with
  | [] => none
  | c :: cs =>
    match digit c with
    | none => none
    | some d =>
      let r := readDigits base digit d cs
      if r.1 < bound then some r else none

/-- An int32: a decimal integer with an optional `-`, or a `0x`-prefixed 32-bit pattern. `-0` is 0, and a pattern may have
fewer than eight digits (DESIGN CHOICE, notes/assumptions/16.md). -/
def readInt : List Char → Option (IntWord × List Char)
  | '-' :: cs => (readNumber 10 decimalDigit (2 ^ 31 + 1) cs).map fun r => (-BitVec.ofNat 32 r.1, r.2)
  | '0' :: 'x' :: cs => (readNumber 16 hexDigit (2 ^ 32) cs).map fun r => (BitVec.ofNat 32 r.1, r.2)
  | cs => (readNumber 10 decimalDigit (2 ^ 31) cs).map fun r => (BitVec.ofNat 32 r.1, r.2)

/-- A sextet: a decimal value 0 to 63. -/
def readSextet (cs : List Char) : Option (Sextet × List Char) :=
  (readNumber 10 decimalDigit 64 cs).map fun r => (BitVec.ofNat 6 r.1, r.2)

/-- The items of a list from the first one on, to the closing bracket that ends the line; at most `fuel` items. -/
def readItems {α : Type} (item : List Char → Option (α × List Char)) : Nat → List Char → Option (List α)
  | 0, _ => none
  | fuel + 1, cs =>
    match item cs with
    | some (x, [']']) => some [x]
    | some (x, ',' :: ' ' :: rest) => (readItems item fuel rest).map (x :: ·)
    | _ => none

/-- A bracketed list operand. -/
def readList {α : Type} (item : List Char → Option (α × List Char)) : List Char → Option (List α)
  | ['[', ']'] => some []
  | '[' :: cs => readItems item cs.length cs
  | _ => none

/-- The single operand of `vlqEncode`, without brackets. -/
def readSingle {α : Type} (item : List Char → Option (α × List Char)) (cs : List Char) : Option (List α) :=
  match item cs with
  | some (x, []) => some [x]
  | _ => none

/-- The characters of a quoted string, to the closing quote that ends the line. -/
def readChars : List Char → Option (List CharCode)
  | [] => none
  | ['"'] => some []
  | '\\' :: '\\' :: cs => (readChars cs).map (0x5C#8 :: ·)
  | '\\' :: '"' :: cs => (readChars cs).map (0x22#8 :: ·)
  | '\\' :: 'x' :: h :: l :: cs =>
    match hexDigit h, hexDigit l with
    | some a, some b => (readChars cs).map (BitVec.ofNat 8 (16 * a + b) :: ·)
    | _, _ => none
  | c :: cs =>
    if 0x20 ≤ c.toNat ∧ c.toNat < 0x7F ∧ c ≠ '"' ∧ c ≠ '\\' then
      (readChars cs).map (BitVec.ofNat 8 c.toNat :: ·)
    else none

/-- A double-quoted string operand. -/
def readText : List Char → Option (List CharCode)
  | '"' :: cs => readChars cs
  | _ => none

/-- The mnemonics, the source's operation names, in the order of `OP` 0 to 6 (R68, R54). -/
def mnemonicTexts : List (List Char) :=
  [['e', 'n', 'c', 'o', 'd', 'e'],
   ['d', 'e', 'c', 'o', 'd', 'e'],
   ['v', 'l', 'q', 'E', 'n', 'c', 'o', 'd', 'e'],
   ['v', 'l', 'q', 'D', 'e', 'c', 'o', 'd', 'e'],
   ['b', 'a', 's', 'e', '6', '4', 'E', 'n', 'c', 'o', 'd', 'e'],
   ['b', 'a', 's', 'e', '6', '4', 'D', 'e', 'c', 'o', 'd', 'e'],
   ['s', 'p', 'l', 'i', 't']]

/-- A request line: mnemonic, one space, operand (R68). -/
def readRequest (line : List Char) : Option Instr :=
  let operand := (line.dropWhile (· != ' ')).tail
  match mnemonicTexts.findIdx? (· == line.takeWhile (· != ' ')) with
  | some 0 => (readList readInt operand).map .encode
  | some 1 => (readText operand).map .decode
  | some 2 => (readSingle readInt operand).map .vlqEncode
  | some 3 => (readList readSextet operand).map .vlqDecode
  | some 4 => (readList readSextet operand).map .base64Encode
  | some 5 => (readText operand).map .base64Decode
  | some 6 => (readList readSextet operand).map .split
  | _ => none

/-! ### Writing a response -/

/-- The character of a digit below 16. -/
def digitChar (d : Nat) : Char :=
  if d < 10 then Char.ofNat ('0'.toNat + d) else Char.ofNat ('A'.toNat + (d - 10))

/-- The decimal digits of `n`, before `acc`; at most `fuel` of them. -/
def decimalFrom : Nat → Nat → List Char → List Char
  | 0, _, acc => acc
  | fuel + 1, n, acc =>
    if n < 10 then digitChar n :: acc
    else decimalFrom fuel (n / 10) (digitChar (n % 10) :: acc)

def writeNat (n : Nat) : List Char :=
  decimalFrom (n + 1) n []

def writeInt (v : IntWord) : List Char :=
  if v.toInt < 0 then '-' :: writeNat v.toInt.natAbs else writeNat v.toInt.natAbs

/-- A character inside a quoted string: escaped where it is a quote, a backslash or outside printable ASCII. -/
def writeChar (c : CharCode) : List Char :=
  if c = 0x22 then ['\\', '"']
  else if c = 0x5C then ['\\', '\\']
  else if 0x20 ≤ c.toNat ∧ c.toNat < 0x7F then [Char.ofNat c.toNat]
  else ['\\', 'x', digitChar (c.toNat / 16), digitChar (c.toNat % 16)]

/-- Items between brackets. -/
def writeList (items : List (List Char)) : List Char :=
  '[' :: (List.intercalate [',', ' '] items ++ [']'])

/-- The value of an element of a list output; a framed element is written as its sextet. No response holds a character in
a list output (DESIGN CHOICE for what would be written, notes/assumptions/16.md). -/
def writeElement : Element → List Char
  | .int v => writeInt v
  | .sextet x => writeNat x.toNat
  | .char c => writeNat c.toNat
  | .framed x => writeNat (x.toNat % 64)

/-- The chunks of a framed output: each ends at its element with `LAST` set (R63). -/
def unframe (cur : List Element) : List Element → List (List Element)
  | [] => if cur.isEmpty then [] else [cur]
  | .framed x :: es => if x.getLsbD 6 then (cur ++ [.framed x]) :: unframe [] es else unframe (cur ++ [.framed x]) es
  | e :: es => unframe (cur ++ [e]) es

/-- The output of operation `op`: a quoted string, a list, or a list of chunks. -/
def writeOutput (op : OpCode) (out : List Element) : List Char :=
  match outputType op with
  | some .char =>
    '"' :: (out.flatMap (fun e => match e with | .char c => writeChar c | e => writeElement e) ++ ['"'])
  | some .framed => writeList ((unframe [] out).map fun c => writeList (c.map writeElement))
  | _ => writeList (out.map writeElement)

/-- The error names of R101; the empty text for the other codes, which no error response has (DESIGN CHOICE,
notes/assumptions/16.md). -/
def errorText (status : StatusCode) : List Char :=
  if status = 1#2 then
    ['I', 'n', 'v', 'a', 'l', 'i', 'd', 'C', 'h', 'a', 'r', 'a', 'c', 't', 'e', 'r']
  else if status = 2#2 then
    ['U', 'n', 't', 'e', 'r', 'm', 'i', 'n', 'a', 't', 'e', 'd', 'V', 'l', 'q']
  else []

/-- The written response to a request with code `op` (R68). -/
def writeResponse (op : OpCode) (r : Response) : List Char :=
  match r.errPos with
  | none => ['-', '>', ' ', 'O', 'K', ' '] ++ writeOutput op r.out
  | some p => ['-', '>', ' '] ++ errorText r.status ++ [' ', '@'] ++ writeNat p

end Sys2Proof.Machine
end

