-- ==== Sys2Proof/Tests/Slice0.lean ====
section
/-! SUPPORT. The model's own tests. Expected results are the worked examples and vectors of spec 95_test_vectors.md (named
E<n>, P<n> or by section) and the rules cited; encodings are the words of 30_encoding.md R54's table. The last part holds a
witness for the hypotheses of every statement that has some. -/

namespace Sys2Proof.Tests

open Sys2Proof Sys2Proof.Machine

/-! ### Helpers -/

/-- A block after reset with request `i` submitted and the given turns ahead. -/
def pending (i : Instr) (turns : List Turn) : State :=
  { State.reset with
    phase := .pending, reqOp := some (encode i).1, reqIn := some (encode i).2, schedule := turns }

/-- The response registers after a step that answers. -/
def response : Host.Outcome State Fault Refusal → Option (Option StatusCode × Option Nat × Option (List Element))
  | .next s => some (s.rspStatus, s.rspErrPos, s.rspOut)
  | _ => none

/-- Phase and refusal mark after a step that answers. -/
def phaseAndMark : Host.Outcome State Fault Refusal → Option (Phase × Bool)
  | .next s => some (s.phase, s.refusalMark)
  | _ => none

/-- An `OK` response with the given output. -/
def ok (out : List Element) : Option (Option StatusCode × Option Nat × Option (List Element)) :=
  some (some 0#2, none, some out)

/-- An error response: no output (R105). -/
def err (code : StatusCode) (pos : Nat) : Option (Option StatusCode × Option Nat × Option (List Element)) :=
  some (some code, some pos, some [])

/-! ### Words of the table: OP bits [2:0] from R54, the operand one element of zero bits -/

theorem test_word_encode : decodeTableWord 8 0b000 = some (.encode [0]) := by decide
theorem test_word_decode : decodeTableWord 8 0b001 = some (.decode [0]) := by decide
theorem test_word_vlqEncode : decodeTableWord 8 0b010 = some (.vlqEncode [0]) := by decide
theorem test_word_vlqDecode : decodeTableWord 8 0b011 = some (.vlqDecode [0]) := by decide
theorem test_word_base64Encode : decodeTableWord 8 0b100 = some (.base64Encode [0]) := by decide
theorem test_word_base64Decode : decodeTableWord 8 0b101 = some (.base64Decode [0]) := by decide
theorem test_word_split : decodeTableWord 8 0b110 = some (.split [0]) := by decide
theorem test_word_reserved : decodeTableWord 8 0b111 = none := by decide

/-- P3 step 1: OP `010`, IN int32 `[0xFFFFFFAF]`. -/
theorem test_decode_operand : decode 0b010#3 [.int 0xFFFFFFAF] = .ok (.vlqEncode [0xFFFFFFAF]) := by decide
/-- A character where OP `011` takes sextets (R54). -/
theorem test_decode_wrong_element : decode 0b011#3 [.sextet 1, .char 0x41] = .error .elementType := by decide
theorem test_decode_reserved : decode 0b111#3 [] = .error .reservedOp := by decide

/-! ### Well-formedness: an ill-formed term for each check -/

theorem test_wf_vlqEncode_empty : (Instr.vlqEncode []).wf = false := by decide
theorem test_wf_vlqEncode_two : (Instr.vlqEncode [1, 2]).wf = false := by decide
theorem test_wf_vlqDecode_empty : (Instr.vlqDecode []).wf = false := by decide

/-! ### One step of each operation -/

/-- E2: `encode [1227133512, 8, -81]` gives "wkpykpCQjF". -/
theorem test_encode_known_vector :
    response (exec (.encode [0x49249248, 8, 0xFFFFFFAF]) (pending (.encode []) [])) =
      ok [.char 0x77, .char 0x6B, .char 0x70, .char 0x79, .char 0x6B, .char 0x70, .char 0x43,
        .char 0x51, .char 0x6A, .char 0x46] := by decide

/-- §2.6: `encode [-2147483648]` begins "hgggggE". -/
theorem test_encode_least_int :
    response (exec (.encode [0x80000000]) (pending (.encode []) [])) =
      ok [.char 0x68, .char 0x67, .char 0x67, .char 0x67, .char 0x67, .char 0x67, .char 0x45] := by decide

/-- E3: `decode "wkpykpCQjF"`. -/
theorem test_decode_known_vector :
    response (exec (.decode [0x77, 0x6B, 0x70, 0x79, 0x6B, 0x70, 0x43, 0x51, 0x6A, 0x46])
      (pending (.decode []) [])) = ok [.int 0x49249248, .int 8, .int 0xFFFFFFAF] := by decide

/-- §2.6: `decode "g!"` gives InvalidCharacter @1 although the first VLQ is unterminated. -/
theorem test_decode_invalid_wins :
    response (exec (.decode [0x67, 0x21]) (pending (.decode []) [])) = err 1 1 := by decide

/-- §2.1: -2^31 gives `[33, 32, 32, 32, 32, 32, 4]`. -/
theorem test_vlqEncode_least_int :
    response (exec (.vlqEncode [0x80000000]) (pending (.vlqEncode [0]) [])) =
      ok [.sextet 33, .sextet 32, .sextet 32, .sextet 32, .sextet 32, .sextet 32, .sextet 4] := by decide

/-- §2.1: 16383 gives `[62, 63, 31]`. -/
theorem test_vlqEncode_length_boundary :
    response (exec (.vlqEncode [16383]) (pending (.vlqEncode [0]) [])) =
      ok [.sextet 62, .sextet 63, .sextet 31] := by decide

/-- §2.5: `[33, 32, 32, 32, 32, 32, 5]` gives 0x60000000. -/
theorem test_vlqDecode_wraps :
    response (exec (.vlqDecode [33, 32, 32, 32, 32, 32, 5]) (pending (.vlqDecode [0]) [])) =
      ok [.int 0x60000000] := by decide

/-- §2.5: the payload at bit 34 is dropped, a shift count taken mod 32 would give 4. -/
theorem test_vlqDecode_drops_high_bits :
    response (exec (.vlqDecode [32, 32, 32, 32, 32, 32, 32, 1]) (pending (.vlqDecode [0]) [])) =
      ok [.int 0] := by decide

/-- §2.2: `[25, 26, 51, 52, 61, 62, 63]` gives "Zaz09+/". -/
theorem test_base64Encode_range_edges :
    response (exec (.base64Encode [25, 26, 51, 52, 61, 62, 63]) (pending (.base64Encode []) [])) =
      ok [.char 0x5A, .char 0x61, .char 0x7A, .char 0x30, .char 0x39, .char 0x2B, .char 0x2F] := by decide

/-- §2.3: "AZaz09+/" gives `[0, 25, 26, 51, 52, 61, 62, 63]`. -/
theorem test_base64Decode_range_edges :
    response (exec (.base64Decode [0x41, 0x5A, 0x61, 0x7A, 0x30, 0x39, 0x2B, 0x2F])
      (pending (.base64Decode []) [])) =
      ok [.sextet 0, .sextet 25, .sextet 26, .sextet 51, .sextet 52, .sextet 61, .sextet 62, .sextet 63] := by
  decide

/-- §2.3: "AA==" gives InvalidCharacter @2. -/
theorem test_base64Decode_padding :
    response (exec (.base64Decode [0x41, 0x41, 0x3D, 0x3D]) (pending (.base64Decode []) [])) = err 1 2 := by
  decide

/-- E6, serialised. -/
theorem test_split_reference :
    response (exec (.split [32, 40, 32, 34, 48, 32, 4, 16, 35, 5]) (pending (.split []) [])) =
      ok [.framed 0x20, .framed 0x28, .framed 0x20, .framed 0x22, .framed 0x30, .framed 0x20, .framed 0x44,
        .framed 0x50, .framed 0x23, .framed 0x45] := by decide

/-- §2.4: `[0, 32, 33]` gives UnterminatedVlq @1. -/
theorem test_split_unterminated :
    response (exec (.split [0, 32, 33]) (pending (.split []) [])) = err 2 1 := by decide

/-! ### Steps -/

/-- P4 step 3: `vlqDecode []` sets the refusal mark and phase stays Pending. -/
theorem test_step_refuses_empty_vlqDecode :
    phaseAndMark (step (pending (.vlqDecode []) [])) = some (.pending, true) := by decide

/-- R33 (d): three elements over a `MAX_IN_LEN` of two. -/
theorem test_step_refuses_long_input :
    phaseAndMark (step { pending (.encode [0, 0, 0]) [] with cfg := { maxInLen := some 2, maxOutLen := none } }) =
      some (.pending, true) := by decide

/-- P5: a reset in phase Pending leaves Idle and no request. -/
theorem test_step_reset_while_pending :
    phaseAndMark (step (pending (.encode [16]) [.reset])) = some (.idle, false) := by decide

/-- Every row of the table runs as the first instruction after reset. -/
theorem test_placed_word_runs :
    phaseAndMark (step (State.reset.withFetchWord 8 0b011)) = some (.done, false) := by decide

/-! ### The request notation (R68), on lines and responses of 95_test_vectors.md -/

/-- P3 step 1. -/
theorem test_read_single : readRequest "vlqEncode -81".toList = some (.vlqEncode [0xFFFFFFAF]) := by decide
/-- P1 step 1, one of its integers as a pattern. -/
theorem test_read_integers :
    readRequest "encode [1227133512, 0x00000008, -81]".toList = some (.encode [0x49249248, 8, 0xFFFFFFAF]) := by
  decide
/-- §2.3: a code outside ASCII. -/
theorem test_read_escape : readRequest "base64Decode \"A\\x80\"".toList = some (.base64Decode [0x41, 0x80]) := by
  decide
/-- 64 is no sextet. -/
theorem test_read_bad_sextet : readRequest "split [0, 64]".toList = none := by decide
/-- E6's grouping of framed elements, shortened to `split [16, 35, 5]`. -/
theorem test_write_chunks :
    writeResponse 6 ⟨0, none, [.framed 0x50, .framed 0x23, .framed 0x45]⟩ = "-> OK [[16], [35, 5]]".toList := by
  decide
/-- §2.6. -/
theorem test_write_error : writeResponse 1 ⟨2, some 10, []⟩ = "-> UnterminatedVlq @10".toList := by decide

/-! ### Witnesses: for each statement with hypotheses, a state and operands that meet them -/

/-- The bounds hold with equality in a block of exactly these bounds. -/
def tight (nIn nOut : Nat) (s : State) : State :=
  { s with cfg := { maxInLen := some nIn, maxOutLen := some nOut } }

theorem tight_within (nIn nOut : Nat) (s : State) : (tight nIn nOut s).WithinBounds nIn nOut :=
  ⟨fun _ h => by cases h; exact le_rfl, fun _ h => by cases h; exact le_rfl⟩

theorem reset_coherent_with (cfg : Config) (turns : List Turn) :
    State.Coherent { State.reset with cfg := cfg, schedule := turns } where
  idle := fun _ => ⟨rfl, rfl, rfl, rfl, rfl⟩
  pending := nofun
  done := nofun
  mark := nofun
  observed := nofun

theorem pending_coherent (i : Instr) (turns : List Turn) : (pending i turns).Coherent where
  idle := nofun
  pending := fun _ => ⟨.inl ⟨i, rfl, rfl⟩, rfl, rfl, rfl⟩
  done := nofun
  mark := nofun
  observed := nofun

/-- The state after the response to `i`. -/
def answeredState (i : Instr) (turns : List Turn) : State :=
  (pending i turns).answered i (responseTo (pending i turns) i)

theorem answered_coherent {i : Instr} {turns : List Turn} (h : ¬ (answeredState i turns).Refused i) :
    (answeredState i turns).Coherent where
  idle := nofun
  pending := nofun
  done := fun _ => ⟨i, ⟨rfl, rfl⟩, h, rfl, rfl, rfl⟩
  mark := nofun
  observed := fun p hp => by rw [List.mem_singleton.1 hp]; exact (responseTo_congr rfl rfl i).symm

theorem witness_DecodeAndEncodeAgree : decode 0b110#3 [.sextet 32, .sextet 1] = .ok (.split [32, 1]) := by decide

theorem witness_PendingStepRunsTheDecodedInstruction :
    ∀ turns ∈ [[], [Turn.codec], [Turn.submit (.operation (.encode [1]))], [Turn.read], [Turn.wait]],
      (pending (.encode [1]) turns).phase = .pending ∧ (pending (.encode [1]) turns).reqOp = some 0 ∧
      (pending (.encode [1]) turns).reqIn = some [.int 1] ∧ decode 0 [.int 1] = .ok (.encode [1]) := by decide

theorem witness_PlacedWordIsTheNextInstruction : decodeTableWord 8 6 = some (.split [0]) := by decide

theorem witness_EncodeConcatenatesTheCharacterRuns :
    (tight 2 9 (pending (.encode []) [])).phase = .pending ∧
    (tight 2 9 (pending (.encode []) [])).WithinBounds 2 9 ∧
    (([0x80000000, 0xFFFFFFAF] : List IntWord).map fun x => encodedLength (intMagnitude x)).sum = 9 :=
  ⟨rfl, tight_within _ _ _, by decide⟩

theorem vlq_one_sextet : VlqInvariant [16] :=
  ⟨by decide, fun k hk => by
    have hk : k = 0 := by simpa using hk
    subst hk; simp [contFlag]⟩

theorem vlq_two_sextets : VlqInvariant [35, 5] :=
  ⟨by decide, fun k hk => by
    match k, hk with
    | 0, _ => simp [contFlag]
    | 1, _ => simp [contFlag]⟩

theorem witness_DecodeYieldsOneIntegerPerVlq :
    (tight 3 2 (pending (.decode []) [])).phase = .pending ∧
    (∀ c ∈ ([0x51, 0x6A, 0x46] : List CharCode), (readRlut State.reset.rlut c).valid = true) ∧
    (([0x51, 0x6A, 0x46] : List CharCode).map fun c => (readRlut State.reset.rlut c).index) =
      [[16], [35, 5]].flatten ∧
    (∀ v ∈ ([[16], [35, 5]] : List (List Sextet)), VlqInvariant v) ∧
    (tight 3 2 (pending (.decode []) [])).WithinBounds 3 2 := by
  refine ⟨rfl, by decide, by decide, fun v hv => ?_, tight_within _ _ _⟩
  rcases List.mem_cons.1 hv with rfl | hv
  · exact vlq_one_sextet
  · rw [List.mem_singleton.1 hv]; exact vlq_two_sextets

/-- For the statements VlqEncodePlacesSignMagnitudeAndFlags, VlqEncodeIsCanonical and VlqDecodeInvertsVlqEncode, at -2^31. -/
theorem witness_VlqEncode :
    (tight 1 7 (pending (.vlqEncode [0x80000000]) [])).phase = .pending ∧
    (tight 1 7 (pending (.vlqEncode [0x80000000]) [])).WithinBounds 1 7 ∧
    encodedLength (intMagnitude 0x80000000) = 7 ∧
    (tight 7 1 (pending (.vlqDecode []) [])).WithinBounds 7 1 :=
  ⟨rfl, tight_within _ _ _, by decide, tight_within _ _ _⟩

/-- For VlqDecodeWrapsTheExactMagnitude, VlqDecodeIgnoresContinuationFlags and ForwardDatapathGivesTheSame. -/
theorem witness_VlqDecode :
    (tight 2 1 (pending (.vlqDecode [0, 5]) [])).phase = .pending ∧ ([0, 5] : List Sextet) ≠ [] ∧
    (tight 2 1 (pending (.vlqDecode [0, 5]) [])).WithinBounds 2 1 ∧
    (([0, 5] : List Sextet).map fun x => x.extractLsb' 0 5) =
      (([32, 37] : List Sextet).map fun x => x.extractLsb' 0 5) :=
  ⟨rfl, by decide, tight_within _ _ _, by decide⟩

/-- For Base64EncodeMapsEverySextet, Base64DecodeUnmapsAlphabetText and SplitFramesATerminatedStream. -/
theorem witness_equal_lengths :
    (tight 2 2 (pending (.split [32, 0]) [])).phase = .pending ∧
    (tight 2 2 (pending (.split [32, 0]) [])).WithinBounds 2 2 ∧
    (∀ c ∈ ([0x41, 0x2F] : List CharCode), (State.reset.rlut[c.toNat]'c.isLt).valid = true) ∧
    (∀ h : ([32, 0] : List Sextet) ≠ [], (([32, 0] : List Sextet).getLast h).getLsbD 5 = false) :=
  ⟨rfl, tight_within _ _ _, by decide, by decide⟩

/-- For Base64DecodeReportsTheFirstInvalidCharacter and DecodeReportsInvalidCharacterFirst: "g!". -/
theorem witness_first_invalid :
    (tight 2 0 (pending (.decode []) [])).phase = .pending ∧
    (tight 2 0 (pending (.decode []) [])).WithinBounds 2 0 ∧
    (∀ d ∈ ([0x67] : List CharCode), (readRlut State.reset.rlut d).valid = true) ∧
    (readRlut State.reset.rlut 0x21).valid = false :=
  ⟨rfl, tight_within _ _ _, by decide, by decide⟩

/-- For SplitReportsTheUnclosedTail, `[0] ++ [32, 33]`, and DecodeReportsTheUnclosedVlq, "AA" ++ "g". -/
theorem witness_unclosed :
    (tight 3 0 (pending (.split []) [])).phase = .pending ∧
    (tight 3 0 (pending (.split []) [])).WithinBounds 3 0 ∧
    (∀ h : ([0] : List Sextet) ≠ [], contFlag (([0] : List Sextet).getLast h) = false) ∧
    (∀ x ∈ ([32, 33] : List Sextet), contFlag x = true) ∧
    (∀ c ∈ ([0x41, 0x41, 0x67] : List CharCode), (readRlut State.reset.rlut c).valid = true) ∧
    (∀ h : ([0x41, 0x41] : List CharCode) ≠ [],
      contFlag (readRlut State.reset.rlut (([0x41, 0x41] : List CharCode).getLast h)).index = false) ∧
    (∀ c ∈ ([0x67] : List CharCode), contFlag (readRlut State.reset.rlut c).index = true) :=
  ⟨rfl, tight_within _ _ _, by decide, by decide, by decide, by decide, by decide⟩

/-- For AnErrorDeliversNoOutput, EachErrorHasItsRaisers, OutputElementsHaveTheOutputType, PerformLeavesTheRestUnchanged: an
error of each kind, an OK response and a refusal. -/
theorem witness_perform :
    phaseAndMark (exec (.decode [0x21]) (pending (.decode [0x21]) [])) = some (.done, false) ∧
    response (exec (.decode [0x21]) (pending (.decode [0x21]) [])) = err 1 0 ∧
    response (exec (.split [32]) (pending (.split [32]) [])) = err 2 0 ∧
    response (exec (.vlqEncode [1]) (pending (.vlqEncode [1]) [])) = ok [.sextet 2] ∧
    phaseAndMark (exec (.vlqEncode []) (pending (.vlqEncode []) [])) = some (.pending, true) :=
  ⟨by decide, by decide, by decide, by decide, by decide⟩

/-- For CodecRefusesExactlyTheListedRequests: a state of each case (a) to (e), and one that is answered at its bounds. -/
theorem witness_refusal :
    (∀ i ∈ [Instr.vlqEncode [], .vlqDecode [], .encode [0, 0]],
      (pending i [.codec]).phase = .pending ∧ (pending i [.codec]).schedule = [.codec]) ∧
    ((pending (.vlqEncode []) [.codec]).HoldsRequest (.vlqEncode []) ∧ ([] : List IntWord).length ≠ 1) ∧
    (pending (.vlqDecode []) [.codec]).HoldsRequest (.vlqDecode []) ∧
    ((tight 1 9 (pending (.encode [0, 0]) [.codec])).HoldsRequest (.encode [0, 0]) ∧
      ∃ b, (tight 1 9 (pending (.encode [0, 0]) [.codec])).cfg.maxInLen = some b ∧ b < 2) ∧
    (∃ b, (tight 2 1 (pending (.encode [0, 0]) [.codec])).cfg.maxOutLen = some b ∧
      b < (responseTo (tight 2 1 (pending (.encode [0, 0]) [.codec])) (.encode [0, 0])).out.length) ∧
    (tight 2 2 (pending (.encode [0, 0]) [.codec])).WithinBounds (encode (.encode [0, 0])).2.length
      (responseTo (tight 2 2 (pending (.encode [0, 0]) [.codec])) (.encode [0, 0])).out.length ∧
    ({ pending (.encode []) [.codec] with reqOp := some 7#3 } : State).reqOp = some 7#3 :=
  ⟨by decide, ⟨⟨rfl, rfl⟩, by decide⟩, ⟨rfl, rfl⟩, ⟨⟨rfl, rfl⟩, 1, rfl, by decide⟩, ⟨1, rfl, by decide⟩,
    tight_within _ _ _, rfl⟩

theorem witness_RefusalMarkIsKeptUntilReset :
    (State.markRefused (pending (.vlqDecode []) [.read])).Coherent ∧
    (State.markRefused (pending (.vlqDecode []) [.read])).refusalMark = true ∧
    ∀ rest, (State.markRefused (pending (.vlqDecode []) [.read])).schedule ≠ .reset :: rest :=
  ⟨⟨nofun, fun _ => ⟨.inl ⟨_, rfl, rfl⟩, rfl, rfl, rfl⟩, nofun,
    fun _ => ⟨rfl, .inr ⟨_, ⟨rfl, rfl⟩, .inr (.inl rfl)⟩⟩, nofun⟩, rfl, nofun⟩

theorem witness_ResetEventDiscardsThePendingRequest :
    (pending (.encode [16]) [.reset]).schedule = .reset :: [] := rfl

/-- For SubmitWritesTheRequestOrHolds: both forms, in phases Idle and Pending. -/
theorem witness_submit :
    (∃ i, Request.operation (.encode [16]) = .operation i ∧ encode i = (0#3, [.int 16])) ∧
    (Request.reserved [.int 16] = .reserved [.int 16] ∧ (0b111#3 : OpCode) = 7#3) ∧
    (∀ r ∈ [Request.operation (.encode [16]), .reserved [.int 16]],
      ({ State.reset with schedule := [.submit r] } : State).phase ≠ .pending ∧
      ({ State.reset with schedule := [.submit r] } : State).schedule = .submit r :: []) ∧
    (pending (.encode []) [.submit (.reserved [])]).phase = .pending ∧
    phaseAndMark (step (pending (.encode []) [.submit (.reserved [])])) = some (.done, false) :=
  ⟨⟨_, rfl, rfl⟩, ⟨rfl, rfl⟩, by decide, rfl, by decide⟩

/-- For ReadReturnsTheResponseOrHoldsOrFaults and RepeatedReadsReturnTheSame: each phase. -/
theorem witness_read :
    (answeredState (.vlqDecode [3]) [.read, .read]).phase = .done ∧
    (answeredState (.vlqDecode [3]) [.read, .read]).rspStatus = some 0 ∧
    (answeredState (.vlqDecode [3]) [.read, .read]).rspOut = some [.int 0xFFFFFFFF] ∧
    ({ State.reset with schedule := [.read] } : State).phase = .idle ∧
    phaseAndMark (step (pending (.vlqDecode [3]) [.read])) = some (.done, false) := by decide

/-- Each clause: P5's pending request lost to a reset, with a codec and a wait turn before the read; a coherent state in
phase Idle with a read next, and one in phase Done; a coherent state in phase Pending. -/
theorem witness_AbsentRegistersFault :
    ((∀ r, Turn.submit r ∉ [Turn.codec, .wait]) ∧ Turn.read ∉ [Turn.codec, .wait] ∧
      (pending (.encode [16]) [.reset, .codec, .wait, .read]).schedule =
        .reset :: ([.codec, .wait] ++ .read :: [])) ∧
    (State.Coherent { State.reset with schedule := [.read] } ∧
      ({ State.reset with schedule := [.read] } : State).phase ≠ .pending) ∧
    ((answeredState (.vlqDecode [3]) [.read]).Coherent ∧ (answeredState (.vlqDecode [3]) [.read]).phase ≠ .pending) ∧
    ((pending (.encode [16]) []).Coherent ∧ (pending (.encode [16]) []).phase = .pending) :=
  ⟨⟨by simp, by simp, rfl⟩, ⟨reset_coherent_with _ _, by decide⟩,
    ⟨answered_coherent (not_refused rfl ⟨nofun, nofun⟩), by decide⟩, ⟨pending_coherent _ _, rfl⟩⟩

theorem witness_TheBlockHoldsItsStateBetweenRequests : State.reset.phase ≠ .pending := by decide

theorem witness_SubmitThenReadReturnsTheResponse :
    ({ State.reset with schedule := [.submit (.operation (.encode [16])), .read] } : State).phase ≠ .pending ∧
    ¬ State.Refused { State.reset with schedule := [.submit (.operation (.encode [16])), .read] } (.encode [16]) :=
  ⟨by decide, not_refused rfl ⟨nofun, nofun⟩⟩

theorem witness_APendingRequestIsPerformed :
    (pending (.encode [16]) [.wait, .wait, .codec]).Coherent ∧
    (pending (.encode [16]) [.wait, .wait, .codec]).phase = .pending ∧
    (pending (.encode [16]) [.wait, .wait, .codec]).schedule = List.replicate 2 .wait ++ [.codec] ∧
    (∀ r, [Turn.codec] ≠ .reset :: r) ∧ (∀ r, [Turn.codec] ≠ .wait :: r) :=
  ⟨pending_coherent _ _, rfl, rfl, nofun, nofun⟩

theorem witness_AnEndedRunObservesNothingMore :
    (answeredState (.encode [16]) [.read]).RunEnded ∧
    phaseAndMark (step (answeredState (.encode [16]) [.read])) = some (.done, false) :=
  ⟨⟨by decide, rfl, fun r h => by cases List.mem_singleton.1 h⟩, by decide⟩

theorem witness_TheResponseDependsOnTheRequestAlone :
    (pending (.encode [16]) []).phase = .pending ∧ (pending (.decode []) [.read]).phase = .pending ∧
    (pending (.encode [16]) []).cfg = (pending (.decode []) [.read]).cfg ∧
    (pending (.encode [16]) []).alpha = (pending (.decode []) [.read]).alpha ∧
    (pending (.encode [16]) []).rlut = (pending (.decode []) [.read]).rlut := ⟨rfl, rfl, rfl, rfl, rfl⟩

/-- For NoStepWritesARom, OnlySubmitAndResetWriteTheRequest, TheObservationGrowsByPerformedRequests,
OnlyAnEarlyReadStopsTheMachine and EveryStepKeepsCoherence: coherent states whose step answers, and one whose step faults. -/
theorem witness_step :
    State.Coherent { State.reset with schedule := [.submit (.operation (.encode [16]))] } ∧
    phaseAndMark (step { State.reset with schedule := [.submit (.operation (.encode [16]))] }) =
      some (.pending, false) ∧
    (pending (.encode [16]) []).Coherent ∧
    phaseAndMark (step (pending (.encode [16]) [])) = some (.done, false) ∧
    State.Coherent { State.reset with schedule := [.read] } ∧
    phaseAndMark (step { State.reset with schedule := [.read] }) = none :=
  ⟨reset_coherent_with _ _, by decide, pending_coherent _ _, by decide, reset_coherent_with _ _, by decide⟩

/-- For EveryRunFromResetIsCoherent: P4's refused request is reached within bounds of one element. -/
theorem witness_EveryRunFromResetIsCoherent :
    phaseAndMark (steps 2 { State.reset with
      cfg := { maxInLen := some 1, maxOutLen := some 1 }, schedule := [.submit (.operation (.vlqDecode []))] }) =
      some (.pending, true) := by decide

theorem witness_ReverseLookupInvertsAnyAlphabet :
    ∀ x y : Sextet, readAlpha alphabet x = readAlpha alphabet y → x = y := by decide +kernel

theorem witness_ChunksPartitionTheStream :
    phaseAndMark (exec (.split [16, 35, 5]) (pending (.split [16, 35, 5]) [])) = some (.done, false) ∧
    response (exec (.split [16, 35, 5]) (pending (.split [16, 35, 5]) [])) =
      ok [.framed 0x50, .framed 0x23, .framed 0x45] := by decide

theorem witness_SplitRecoversTheEncodedVlqs :
    (tight 3 3 (pending (.split []) [])).phase = .pending ∧
    (tight 3 3 (pending (.split []) [])).WithinBounds (([8, 0xFFFFFFAF] : List IntWord).flatMap vlqEncode).length
      (([8, 0xFFFFFFAF] : List IntWord).flatMap vlqEncode).length :=
  ⟨rfl, tight_within _ _ _⟩

/-- For Base64DecodeInvertsBase64Encode and DecodeInvertsEncode. -/
theorem witness_round_trips :
    (tight 2 14 (pending (.encode []) [])).phase = .pending ∧ (tight 14 2 (pending (.decode []) [])).phase = .pending ∧
    State.RomsInverse (tight 14 2 (pending (.decode []) [])) ∧
    (tight 2 14 (pending (.encode []) [])).alpha = (tight 14 2 (pending (.decode []) [])).alpha ∧
    (tight 2 14 (pending (.encode []) [])).WithinBounds 2 (7 * 2) ∧
    (tight 14 2 (pending (.decode []) [])).WithinBounds (7 * 2) 2 :=
  ⟨rfl, rfl, by unfold State.RomsInverse; decide +kernel, rfl, tight_within _ _ _, tight_within _ _ _⟩

theorem witness_Base64EncodeInvertsBase64Decode :
    (tight 2 2 (pending (.decode []) [])).phase = .pending ∧
    (tight 2 2 (pending (.decode []) [])).rlut = rlutOf (tight 2 2 (pending (.decode []) [])).alpha ∧
    (∀ c ∈ ([0x41, 0x2F] : List CharCode),
      (readRlut (tight 2 2 (pending (.decode []) [])).rlut c).valid = true) ∧
    (tight 2 2 (pending (.decode []) [])).WithinBounds 2 2 :=
  ⟨rfl, rfl, by decide, tight_within _ _ _⟩

/-- For EncodeComposesTheLowerOperations: the VLQ of 16 at every state its premise names. -/
theorem witness_EncodeComposesTheLowerOperations :
    List.Forall₂ (fun (x : IntWord) (v : List Sextet) => ∀ w : State, w.phase = .pending → w.WithinBounds 1 v.length →
      exec (.vlqEncode [x]) w = .next (w.answered (.vlqEncode [x]) ⟨0#2, none, v.map .sextet⟩)) [16] [[32, 1]] :=
  .cons (fun w _ hb => exec_of_response (show vlqEncodeResponse [16] = _ by decide) rfl hb) .nil

/-- For DecodeComposesTheLowerOperations: B64_DECODE and SPLIT responses of each kind, and the integer of a chunk. -/
theorem witness_DecodeComposesTheLowerOperations :
    exec (.base64Decode [0x21]) (pending (.decode []) []) =
      .next ((pending (.decode []) []).answered (.base64Decode [0x21]) ⟨1#2, some 0, []⟩) ∧
    exec (.base64Decode [0x67]) (pending (.decode []) []) =
      .next ((pending (.decode []) []).answered (.base64Decode [0x67]) ⟨0#2, none, [32].map .sextet⟩) ∧
    exec (.split [32]) (pending (.decode []) []) =
      .next ((pending (.decode []) []).answered (.split [32]) ⟨2#2, some 0, []⟩) ∧
    exec (.base64Decode [0x6A, 0x46]) (pending (.decode []) []) =
      .next ((pending (.decode []) []).answered (.base64Decode [0x6A, 0x46]) ⟨0#2, none, [35, 5].map .sextet⟩) ∧
    exec (.split [35, 5]) (pending (.decode []) []) =
      .next ((pending (.decode []) []).answered (.split [35, 5]) ⟨0#2, none, (serialise [[35, 5]]).map .framed⟩) ∧
    List.Forall₂ (fun (c : List Sextet) (x : IntWord) => ∀ w : State, w.phase = .pending →
      w.WithinBounds c.length 1 →
        exec (.vlqDecode c) w = .next (w.answered (.vlqDecode c) ⟨0#2, none, [.int x]⟩)) [[35, 5]] [0xFFFFFFAF] :=
  ⟨exec_of_response (by decide) rfl ⟨nofun, nofun⟩, exec_of_response (by decide) rfl ⟨nofun, nofun⟩,
    exec_of_response (by decide) rfl ⟨nofun, nofun⟩, exec_of_response (by decide) rfl ⟨nofun, nofun⟩,
    exec_of_response (by decide) rfl ⟨nofun, nofun⟩,
    .cons (fun w _ hb => exec_of_response (show vlqDecodeResponse [35, 5] = _ by decide) rfl hb) .nil⟩

theorem witness_NonCanonicalTextIsNotRestored :
    (tight 1 1 (pending (.decode []) [])).phase = .pending ∧ (tight 1 1 (pending (.decode []) [])).RomsHold ∧
    (tight 1 1 (pending (.decode []) [])).WithinBounds 1 1 :=
  ⟨rfl, ⟨rfl, rfl⟩, tight_within _ _ _⟩

end Sys2Proof.Tests
end

/-! SUPPORT. The statements of spec 10_state.md: what the request registers hold, what each turn does, which fields a step
writes, the coherence invariant, and the two ROMs. -/

namespace Sys2Proof.Machine

open Sys2Proof

/-! ### The decoder and the encoder (R54) -/

theorem onTyped_collect_map {α : Type} {mk : List α → Instr} {f : Element → Option α} {g : α → Element}
    (hfg : ∀ x, f (g x) = some x) (xs : List α) : onTyped mk (collect f (xs.map g)) = .ok (mk xs) := by
  rw [collect_map hfg, onTyped]

/-- The encoder's pair is read back as the instruction. -/
theorem decode_encode (i : Instr) : decode (encode i).1 (encode i).2 = .ok i := by
  have int (mk : List IntWord → Instr) := onTyped_collect_map (mk := mk) (f := Element.int?) (g := .int) fun _ => rfl
  have char (mk : List CharCode → Instr) :=
    onTyped_collect_map (mk := mk) (f := Element.char?) (g := .char) fun _ => rfl
  have sextet (mk : List Sextet → Instr) :=
    onTyped_collect_map (mk := mk) (f := Element.sextet?) (g := .sextet) fun _ => rfl
  cases i with
  | encode xs => exact int .encode xs
  | decode cs => exact char .decode cs
  | vlqEncode xs => exact int .vlqEncode xs
  | vlqDecode ss => exact sextet .vlqDecode ss
  | base64Encode ss => exact sextet .base64Encode ss
  | base64Decode cs => exact char .base64Decode cs
  | split ss => exact sextet .split ss

theorem encode_op_ne_reserved (i : Instr) : (encode i).1 ≠ 7#3 := by
  cases i <;> simp [encode]

theorem eq_map_of_collect {α : Type} {f : Element → Option α} {g : α → Element}
    (hfg : ∀ e x, f e = some x → e = g x) {es : List Element} {xs : List α} (h : collect f es = some xs) :
    es = xs.map g := by
  induction es generalizing xs with
  | nil => cases h; rfl
  | cons e es ih =>
    unfold collect at h
    split at h
    next x ys hx hys => cases h; rw [hfg e x hx, ih hys, List.map_cons]
    next => cases h

theorem onTyped_eq_ok {α : Type} {mk : List α → Instr} {o : Option (List α)} {i : Instr}
    (h : onTyped mk o = .ok i) : ∃ xs, o = some xs ∧ i = mk xs := by
  cases o with
  | none => cases h
  | some xs => cases h; exact ⟨xs, rfl, rfl⟩

/-- What one row of the decoder accepts, the row's encoding gives back. -/
theorem encode_of_onTyped {α : Type} {mk : List α → Instr} {f : Element → Option α} {g : α → Element} {k op : OpCode}
    {es : List Element} {i : Instr} (hmk : ∀ xs, encode (mk xs) = (k, xs.map g))
    (hfg : ∀ e x, f e = some x → e = g x) (hop : op.toNat = k.toNat) (h : onTyped mk (collect f es) = .ok i) :
    encode i = (op, es) := by
  obtain ⟨xs, hxs, rfl⟩ := onTyped_eq_ok h
  rw [hmk, ← eq_map_of_collect hfg hxs, BitVec.eq_of_toNat_eq hop]

theorem eq_int_of_int? (e : Element) (x : IntWord) (h : e.int? = some x) : e = .int x := by
  cases e <;> cases h; rfl

theorem eq_char_of_char? (e : Element) (c : CharCode) (h : e.char? = some c) : e = .char c := by
  cases e <;> cases h; rfl

theorem eq_sextet_of_sextet? (e : Element) (x : Sextet) (h : e.sextet? = some x) : e = .sextet x := by
  cases e <;> cases h; rfl

/-- A decoded instruction encodes to the pair it was read from. -/
theorem encode_of_decode {op : OpCode} {es : List Element} {i : Instr} (h : decode op es = .ok i) :
    encode i = (op, es) := by
  unfold decode at h
  split at h
  case h_1 hop => exact encode_of_onTyped (k := 0#3) (fun _ => rfl) eq_int_of_int? hop h
  case h_2 hop => exact encode_of_onTyped (k := 1#3) (fun _ => rfl) eq_char_of_char? hop h
  case h_3 hop => exact encode_of_onTyped (k := 2#3) (fun _ => rfl) eq_int_of_int? hop h
  case h_4 hop => exact encode_of_onTyped (k := 3#3) (fun _ => rfl) eq_sextet_of_sextet? hop h
  case h_5 hop => exact encode_of_onTyped (k := 4#3) (fun _ => rfl) eq_sextet_of_sextet? hop h
  case h_6 hop => exact encode_of_onTyped (k := 5#3) (fun _ => rfl) eq_char_of_char? hop h
  case h_7 hop => exact encode_of_onTyped (k := 6#3) (fun _ => rfl) eq_sextet_of_sextet? hop h
  case h_8 => cases h

/-! ### What the request registers hold (R28) -/

theorem holdsRequest_unique {s : State} {i j : Instr} (hi : s.HoldsRequest i) (hj : s.HoldsRequest j) : i = j := by
  have hop : (encode i).1 = (encode j).1 := Option.some.inj (hi.1.symm.trans hj.1)
  have hin : (encode i).2 = (encode j).2 := Option.some.inj (hi.2.symm.trans hj.2)
  have h := decode_encode i
  rw [hop, hin, decode_encode j] at h
  exact (Except.ok.inj h).symm

theorem not_holdsReserved_of_holdsRequest {s : State} {i : Instr} (h : s.HoldsRequest i) : ¬ s.HoldsReserved :=
  fun hr => encode_op_ne_reserved i (Option.some.inj (h.1.symm.trans hr.1))

theorem perform_of_holdsRequest {s : State} {i : Instr} (h : s.HoldsRequest i) : perform s = exec i s :=
  perform_of_decode h.1 h.2 (decode_encode i)

/-- The request registers hold a request that R33 refuses, case (a) to (e). -/
def State.HoldsRefused (s : State) : Prop :=
  s.HoldsReserved ∨ ∃ i, s.HoldsRequest i ∧ s.Refused i

theorem perform_of_holdsRefused {s : State} (h : s.HoldsRefused) : perform s = .next s.markRefused := by
  obtain h | ⟨i, hi, hr⟩ := h
  · exact perform_of_reserved h
  · rw [perform_of_holdsRequest hi, exec_refused hr]

theorem not_holdsRefused_of_admitted {s : State} {i : Instr} (hi : s.HoldsRequest i) (hr : ¬ s.Refused i) :
    ¬ s.HoldsRefused := by
  rintro (h | ⟨j, hj, hjr⟩)
  · exact not_holdsReserved_of_holdsRequest hi h
  · exact hr (holdsRequest_unique hi hj ▸ hjr)

/-- A held request is either refused, or admitted and answered with `F` of it (R37). -/
theorem perform_of_held {s : State} (h : (∃ i, s.HoldsRequest i) ∨ s.HoldsReserved) :
    (s.HoldsRefused ∧ perform s = .next s.markRefused) ∨
      ∃ i, s.HoldsRequest i ∧ ¬ s.Refused i ∧ perform s = .next (s.answered i (responseTo s i)) := by
  obtain ⟨i, hi⟩ | hres := h
  · by_cases hr : s.Refused i
    · have hheld : s.HoldsRefused := .inr ⟨i, hi, hr⟩
      exact .inl ⟨hheld, perform_of_holdsRefused hheld⟩
    · exact .inr ⟨i, hi, hr, by rw [perform_of_holdsRequest hi, exec_answered hr]⟩
  · exact .inl ⟨.inl hres, perform_of_reserved hres⟩

/-! ### What a turn does, by phase -/

theorem step_wait {s : State} {rest : List Turn} (hs : s.schedule = .wait :: rest) :
    step s = .next (s.withSchedule rest) := by
  simp [step, takeTurn, hs]

theorem step_reset {s : State} {rest : List Turn} (hs : s.schedule = .reset :: rest) :
    step s = .next (s.withSchedule rest).resetBlock := by
  simp [step, takeTurn, hs]

/-- In phase Pending the step performs, unless the host's turn is a wait or a reset (R35, R36, R37, R126). -/
theorem step_of_pending {s : State} (hp : s.phase = .pending) :
    (∃ rest, s.schedule = .wait :: rest ∧ step s = .next (s.withSchedule rest)) ∨
    (∃ rest, s.schedule = .reset :: rest ∧ step s = .next (s.withSchedule rest).resetBlock) ∨
    ∃ ts, step s = perform (s.withSchedule ts) := by
  match hs : s.schedule with
  | .wait :: rest => exact .inl ⟨rest, rfl, step_wait hs⟩
  | .reset :: rest => exact .inr (.inl ⟨rest, rfl, step_reset hs⟩)
  | .codec :: rest => exact .inr (.inr ⟨rest, takeTurn_codec hp hs⟩)
  | [] => exact .inr (.inr ⟨s.schedule, takeTurn_pending hp (.inl hs)⟩)
  | .submit r :: rest => exact .inr (.inr ⟨s.schedule, takeTurn_pending hp (.inr (.inl ⟨r, rest, hs⟩))⟩)
  | .read :: rest => exact .inr (.inr ⟨s.schedule, takeTurn_pending hp (.inr (.inr ⟨rest, hs⟩))⟩)

theorem step_submit {s : State} {r : Request} {rest : List Turn} (hp : s.phase ≠ .pending)
    (hs : s.schedule = .submit r :: rest) : step s = .next ((s.withSchedule rest).submit r) := by
  cases h : s.phase with
  | pending => exact absurd h hp
  | idle => simp [step, takeTurn, hs, submitTurn, h]
  | done => simp [step, takeTurn, hs, submitTurn, h]

theorem step_codec_idle {s : State} {rest : List Turn} (hp : s.phase = .idle) (hs : s.schedule = .codec :: rest) :
    step s = .next (s.withSchedule rest) := by
  simp [step, takeTurn, hs, codecTurn, hp]

/-- A read in phase Idle faults (R36). -/
theorem step_read_idle {s : State} {rest : List Turn} (hp : s.phase = .idle) (hs : s.schedule = .read :: rest) :
    step s = .fault .readBeforeResponse := by
  simp [step, takeTurn, hs, readTurn, hp]

/-- A read in phase Done returns the response registers (R36). -/
theorem step_read_done {s : State} {rest : List Turn} {status : StatusCode} {out : List Element}
    (hp : s.phase = .done) (hs : s.schedule = .read :: rest) (hstatus : s.rspStatus = some status)
    (hout : s.rspOut = some out) :
    step s = .next ((s.withSchedule rest).recordRead ⟨status, s.rspErrPos, out⟩) := by
  simp [step, takeTurn, hs, readTurn, hp, readResponse, hstatus, hout]

/-! ### Frames -/

/-- The codec writes neither the parameters, nor the request registers, nor what belongs to the host (R28, R37). -/
theorem perform_frame {s t : State} (h : perform s = .next t) :
    (t.cfg = s.cfg ∧ t.alpha = s.alpha ∧ t.rlut = s.rlut) ∧ (t.reqOp = s.reqOp ∧ t.reqIn = s.reqIn) ∧
      t.schedule = s.schedule ∧ t.reads = s.reads := by
  obtain rfl | ⟨_, _, i, -, -, -, -, rfl⟩ := perform_next h <;> simp

/-- No step of either agent writes the ROMs or the bounds (R26, R27). -/
theorem step_parameters {s t : State} (h : step s = .next t) :
    t.alpha = s.alpha ∧ t.rlut = s.rlut ∧ t.cfg = s.cfg := by
  obtain ⟨u, -, hu, h⟩ | ⟨rfl, -⟩ | ⟨_, -, rfl⟩ | ⟨_, -, rfl⟩ | ⟨_, _, -, -, rfl⟩ | ⟨_, _, -, -, rfl⟩ := step_next h
  · obtain ⟨⟨hcfg, halpha, hrlut⟩, -⟩ := perform_frame h
    obtain rfl | ⟨_, -, rfl⟩ := hu <;> exact ⟨halpha, hrlut, hcfg⟩
  all_goals exact ⟨rfl, rfl, rfl⟩

/-! ### The coherence invariant -/

namespace State.Coherent

variable {s : State}

/-- The record stays right at every state with the same ROMs (R34). -/
theorem observed_at {u : State} (h : s.Coherent) (halpha : u.alpha = s.alpha) (hrlut : u.rlut = s.rlut) :
    ∀ p ∈ s.observation, p.2 = responseTo u p.1 :=
  fun p hp => (h.observed p hp).trans (responseTo_congr halpha hrlut p.1).symm

/-- An admitted request is not marked (R37). -/
theorem unmarked {i : Instr} (h : s.Coherent) (hi : s.HoldsRequest i) (hr : ¬ s.Refused i) :
    s.refusalMark = false :=
  Bool.eq_false_iff.2 fun hm => not_holdsRefused_of_admitted hi hr (h.mark hm).2

/-- Coherence does not speak of the host's turns and reads. -/
theorem with_host (h : s.Coherent) (ts : List Turn) (rs : List Response) :
    State.Coherent { s with schedule := ts, reads := rs } := by
  have hF (i : Instr) : responseTo { s with schedule := ts, reads := rs } i = responseTo s i :=
    responseTo_congr rfl rfl i
  have hR (i : Instr) : State.Refused { s with schedule := ts, reads := rs } i ↔ s.Refused i :=
    refused_congr rfl rfl rfl i
  constructor
  case idle => exact h.idle
  case pending => exact h.pending
  case done =>
    intro hp
    obtain ⟨i, hi, hr, hrsp⟩ := h.done hp
    exact ⟨i, hi, mt (hR i).1 hr, (hF i).symm ▸ hrsp⟩
  case mark =>
    intro hm
    obtain ⟨hp, hres | ⟨i, hi, hr⟩⟩ := h.mark hm
    · exact ⟨hp, .inl hres⟩
    · exact ⟨hp, .inr ⟨i, hi, (hR i).2 hr⟩⟩
  case observed => exact h.observed_at rfl rfl

theorem withSchedule (h : s.Coherent) (ts : List Turn) : (s.withSchedule ts).Coherent :=
  h.with_host ts s.reads

theorem recordRead (h : s.Coherent) (r : Response) : (s.recordRead r).Coherent :=
  h.with_host s.schedule (s.reads ++ [r])

theorem submit (h : s.Coherent) (hp : s.phase ≠ .pending) (r : Request) : (s.submit r).Coherent where
  idle := nofun
  pending _ := by
    refine ⟨?_, rfl, rfl, rfl⟩
    cases r with
    | operation i => exact .inl ⟨i, rfl, rfl⟩
    | reserved es => exact .inr ⟨rfl, es, rfl⟩
  done := nofun
  mark hm := absurd (h.mark hm).1 hp
  observed := h.observed_at rfl rfl

theorem resetBlock (h : s.Coherent) : s.resetBlock.Coherent where
  idle _ := ⟨rfl, rfl, rfl, rfl, rfl⟩
  pending := nofun
  done := nofun
  mark := nofun
  observed := h.observed_at rfl rfl

theorem markRefused (h : s.Coherent) (hp : s.phase = .pending) (hr : s.HoldsRefused) :
    s.markRefused.Coherent where
  idle hidle := nomatch hp.symm.trans hidle
  pending := h.pending
  done hdone := nomatch hp.symm.trans hdone
  mark _ := ⟨hp, hr.imp_right fun ⟨i, hi, hri⟩ => ⟨i, hi, (refused_congr rfl rfl rfl i).2 hri⟩⟩
  observed := h.observed_at rfl rfl

theorem answered {i : Instr} (h : s.Coherent) (hi : s.HoldsRequest i) (hr : ¬ s.Refused i) :
    (s.answered i (responseTo s i)).Coherent where
  idle := nofun
  pending := nofun
  done _ := by
    refine ⟨i, hi, mt (refused_congr rfl rfl rfl i).1 hr, ?_⟩
    rw [responseTo_congr (s := s) rfl rfl i]
    exact ⟨rfl, rfl, rfl⟩
  mark hm := nomatch (h.unmarked hi hr).symm.trans hm
  observed p hp := by
    obtain hp | hp := List.mem_append.1 hp
    · exact h.observed_at rfl rfl p hp
    · rw [List.mem_singleton.1 hp]
      exact (responseTo_congr rfl rfl i).symm

/-- A coherent pending block answers its perform step, coherently. -/
theorem perform_answers (h : s.Coherent) (hp : s.phase = .pending) :
    ∃ t, perform s = .next t ∧ t.Coherent ∧ (t.phase = .done ∨ t.phase = .pending ∧ t.refusalMark = true) := by
  obtain ⟨hr, ht⟩ | ⟨i, hi, hr, ht⟩ := perform_of_held (h.pending hp).1
  · exact ⟨_, ht, h.markRefused hp hr, .inr ⟨hp, rfl⟩⟩
  · exact ⟨_, ht, h.answered hi hr, .inl rfl⟩

theorem of_step {t : State} (h : s.Coherent) (ht : step s = .next t) : t.Coherent := by
  obtain ⟨u, hp, hu, ht⟩ | ⟨rfl, -⟩ | ⟨rest, -, rfl⟩ | ⟨rest, -, rfl⟩ | ⟨r, rest, -, hp, rfl⟩ | ⟨r, rest, -, -, rfl⟩ :=
    step_next ht
  · obtain ⟨hc, hpu⟩ : u.Coherent ∧ u.phase = .pending := by
      obtain rfl | ⟨rest, -, rfl⟩ := hu
      · exact ⟨h, hp⟩
      · exact ⟨h.withSchedule rest, hp⟩
    obtain ⟨t', ht', hc', -⟩ := hc.perform_answers hpu
    cases ht'.symm.trans ht
    exact hc'
  · exact h
  · exact h.withSchedule rest
  · exact (h.withSchedule rest).resetBlock
  · exact (h.withSchedule rest).submit hp r
  · exact (h.withSchedule rest).recordRead r

end State.Coherent

/-- Settles O39, one lemma per update that a step makes. -/
theorem everyStepKeepsCoherence : Obligations.EveryStepKeepsCoherence :=
  fun _ _ h ht => h.of_step ht

/-- The state after reset, within any bounds and before any host. -/
theorem reset_coherent (cfg : Config) (turns : List Turn) :
    State.Coherent { State.reset with cfg := cfg, schedule := turns } where
  idle _ := ⟨rfl, rfl, rfl, rfl, rfl⟩
  pending := nofun
  done := nofun
  mark := nofun
  observed := nofun

/-- Settles O38. -/
theorem resetIsCoherent : Obligations.ResetIsCoherent :=
  reset_coherent State.reset.cfg State.reset.schedule

/-- What every step keeps holds of every state of a run. -/
theorem steps_induction {P : State → Prop} (hstep : ∀ s t, P s → step s = .next t → P t) {n : Nat} {s t : State}
    (hs : P s) (h : steps n s = .next t) : P t := by
  induction n generalizing s with
  | zero => cases h; exact hs
  | succ n ih =>
    unfold steps at h
    split at h
    next u hu => exact ih (hstep s u hs hu) h
    next => cases h
    next => cases h

/-- Settles O40, by induction over the run with O39's step lemma. -/
theorem everyRunFromResetIsCoherent : Obligations.EveryRunFromResetIsCoherent := by
  intro cfg turns n t h
  refine steps_induction (P := fun s => s.Coherent ∧ s.RomsHold) ?_ ⟨reset_coherent cfg turns, rfl, rfl⟩ h
  rintro s u ⟨hc, halpha, hrlut⟩ hu
  obtain ⟨ha, hr, -⟩ := step_parameters hu
  exact ⟨hc.of_step hu, ha.trans halpha, hr.trans hrlut⟩

/-! ### Frames of the whole machine -/

/-- Settles O34. -/
theorem noStepWritesARom : Obligations.NoStepWritesARom :=
  fun _ _ h => step_parameters h

/-- Settles O35: every other step that answers leaves both request registers. -/
theorem onlySubmitAndResetWriteTheRequest : Obligations.OnlySubmitAndResetWriteTheRequest := by
  intro s t h hne
  obtain ⟨u, -, hu, h⟩ | ⟨rfl, -⟩ | ⟨_, -, rfl⟩ | ⟨rest, hs, -⟩ | ⟨r, rest, hs, hp, -⟩ | ⟨_, _, -, -, rfl⟩ :=
    step_next h
  · obtain ⟨-, ⟨hop, hin⟩, -⟩ := perform_frame h
    obtain rfl | ⟨_, -, rfl⟩ := hu <;> simp [hop, hin] at hne
  · simp at hne
  · simp at hne
  · exact .inl ⟨rest, hs⟩
  · exact .inr ⟨r, rest, hs, hp⟩
  · simp at hne

/-! ### The responses (R30, R34) -/

/-- Settles O33: refusal and response read the bounds and the ROMs only. -/
theorem theResponseDependsOnTheRequestAlone : Obligations.TheResponseDependsOnTheRequestAlone := by
  intro i s u hs hu hcfg halpha hrlut
  have hF : responseTo s i = responseTo u i := responseTo_congr halpha hrlut i
  by_cases hr : s.Refused i
  · have hur : u.Refused i := (refused_congr hcfg halpha hrlut i).1 hr
    refine ⟨_, _, exec_refused hr, exec_refused hur, hs.trans hu.symm, fun hdone => ?_⟩
    exact nomatch hs.symm.trans hdone
  · have hur : ¬ u.Refused i := mt (refused_congr hcfg halpha hrlut i).2 hr
    exact ⟨_, _, exec_answered hr, exec_answered hur, rfl, fun _ => by simp [hF]⟩

theorem okResponse_out_type {α : Type} {g : α → Element} {ty : Option ElemType} (hg : ∀ x, ty = some (g x).type)
    (xs : List α) : ∀ e ∈ (okResponse (xs.map g)).out, ty = some e.type := by
  intro e he
  obtain ⟨x, -, rfl⟩ := List.mem_map.1 he
  exact hg x

/-- An error response has no output element (R105). -/
theorem raise_out_type (err : CodecError) (ty : Option ElemType) : ∀ e ∈ (raise err).out, ty = some e.type :=
  nofun

/-- Every element of `F`'s output has the type R54's table gives the operation. -/
theorem responseTo_out_type (s : State) (i : Instr) :
    ∀ e ∈ (responseTo s i).out, outputType (encode i).1 = some e.type := by
  cases i with
  | encode xs => exact okResponse_out_type (g := .char) (fun _ => rfl) _
  | decode cs =>
    simp only [responseTo, decodeResponse]
    cases decodeText s.rlut cs with
    | ok xs => exact okResponse_out_type (g := .int) (fun _ => rfl) xs
    | error err => exact raise_out_type err _
  | vlqEncode xs => exact okResponse_out_type (g := .sextet) (fun _ => rfl) _
  | vlqDecode ss => exact okResponse_out_type (g := .int) (fun _ => rfl) [vlqDecode ss]
  | base64Encode ss => exact okResponse_out_type (g := .char) (fun _ => rfl) _
  | base64Decode cs =>
    simp only [responseTo, base64DecodeResponse]
    cases b64Unmap s.rlut cs with
    | ok ss => exact okResponse_out_type (g := .sextet) (fun _ => rfl) ss
    | error err => exact raise_out_type err _
  | split ss =>
    simp only [responseTo, splitResponse]
    cases frame ss with
    | ok chunks => exact okResponse_out_type (g := .framed) (fun _ => rfl) (serialise chunks)
    | error err => exact raise_out_type err _

/-- Settles O19. -/
theorem outputElementsHaveTheOutputType : Obligations.OutputElementsHaveTheOutputType := by
  intro i s t out hp h hdone hout
  obtain ⟨-, he⟩ | ⟨-, he⟩ := exec_cases i s <;> rw [he] at h <;> cases h
  · exact nomatch hp.symm.trans hdone
  · cases hout
    exact responseTo_out_type s i

/-! ### The perform step in phase Pending (R33, R37, R126) -/

/-- Settles O21. -/
theorem codecRefusesExactlyTheListedRequests : Obligations.CodecRefusesExactlyTheListedRequests := by
  intro s rest hp hs
  have hstep : step s = perform (s.withSchedule rest) := takeTurn_codec hp hs
  refine ⟨fun es hop hin => ?_, fun i hi => ⟨fun hr => ?_, fun hone hnonempty ⟨hmaxIn, hmaxOut⟩ => ?_⟩⟩
  · exact hstep.trans (perform_of_reserved ⟨hop, es, hin⟩)
  · have hr' : (s.withSchedule rest).Refused i := (refused_congr rfl rfl rfl i).2 hr
    rw [hstep, perform_of_holdsRequest (show (s.withSchedule rest).HoldsRequest i from hi), exec_refused hr']
    rfl
  · have hr : ¬ s.Refused i := by
      rintro (⟨xs, hxs, hlen⟩ | hempty | ⟨b, hb, hlt⟩ | ⟨b, hb, hlt⟩)
      · exact hlen (hone xs hxs)
      · exact hnonempty hempty
      · exact absurd (hmaxIn b hb) (by omega)
      · exact absurd (hmaxOut b hb) (by omega)
    have hr' : ¬ (s.withSchedule rest).Refused i := mt (refused_congr rfl rfl rfl i).1 hr
    rw [hstep, perform_of_holdsRequest (show (s.withSchedule rest).HoldsRequest i from hi), exec_answered hr',
      responseTo_congr (s := s) rfl rfl i]
    rfl

/-- Settles O22: the marked request is a refused one, so every perform step refuses it again. -/
theorem refusalMarkIsKeptUntilReset : Obligations.RefusalMarkIsKeptUntilReset := by
  intro s h hm hnoReset
  obtain ⟨hp, hr⟩ := h.mark hm
  have hnone : s.NoResponse := (h.pending hp).2
  obtain ⟨rest, -, ht⟩ | ⟨rest, hs, -⟩ | ⟨ts, ht⟩ := step_of_pending hp
  · exact ⟨_, ht, hm, hp, hnone, rfl, rfl⟩
  · exact absurd hs (hnoReset rest)
  · have hr' : (s.withSchedule ts).HoldsRefused := ((h.withSchedule ts).mark hm).2
    exact ⟨_, ht.trans (perform_of_holdsRefused hr'), rfl, hp, hnone, rfl, rfl⟩

/-- Settles O31, by induction on the number of waits. -/
theorem aPendingRequestIsPerformed : Obligations.APendingRequestIsPerformed := by
  intro k
  induction k with
  | zero =>
    intro s rest h hp hs hnoReset hnoWait
    obtain ⟨r, hw, -⟩ | ⟨r, hr, -⟩ | ⟨ts, ht⟩ := step_of_pending hp
    · exact absurd (hs.symm.trans hw) (hnoWait r)
    · exact absurd (hs.symm.trans hr) (hnoReset r)
    · obtain ⟨t, hperform, -, hend⟩ := (h.withSchedule ts).perform_answers hp
      exact ⟨t, steps_succ (ht.trans hperform), hend⟩
  | succ k ih =>
    intro s rest h hp hs hnoReset hnoWait
    have hwait : step s = .next (s.withSchedule (List.replicate k .wait ++ rest)) := step_wait hs
    rw [steps_succ hwait]
    exact ih _ rest (h.withSchedule _) hp rfl hnoReset hnoWait

/-- Settles O4. -/
theorem pendingStepRunsTheDecodedInstruction : Obligations.PendingStepRunsTheDecodedInstruction := by
  intro s op es i hp hop hin hd
  have hperform : perform s = exec i s := perform_of_decode hop hin hd
  refine ⟨fun hs => ?_, fun rest hs => ?_, fun r rest hs => ?_, fun rest hs => ?_, fun rest hs => step_wait hs⟩
  · exact (takeTurn_pending hp (.inl hs)).trans hperform
  · exact (takeTurn_codec hp hs).trans (perform_of_decode hop hin hd)
  · exact (takeTurn_pending hp (.inr (.inl ⟨r, rest, hs⟩))).trans hperform
  · exact (takeTurn_pending hp (.inr (.inr ⟨rest, hs⟩))).trans hperform

theorem decode_of_decodeTableWord {nbits w : Nat} {i : Instr} (h : decodeTableWord nbits w = some i) :
    decode (tableOp w) (tableOperand (tableOp w)) = .ok i := by
  unfold decodeTableWord at h
  split at h
  next j hj => cases h; exact hj
  next => cases h

/-- Settles O5: the placed word is a held request with the codec's turn next. -/
theorem placedWordIsTheNextInstruction : Obligations.PlacedWordIsTheNextInstruction := by
  intro s nbits w i h
  have hd := decode_of_decodeTableWord h
  rw [encode_of_decode hd]
  exact (takeTurn_codec (s := s.withFetchWord nbits w) rfl rfl).trans (perform_of_decode rfl rfl hd)

/-! ### The host's steps (R35, R36, R119) -/

/-- A submit or read turn in phase Pending is held: the step is the codec's (R35, R36). -/
theorem held_turn_frame {s t : State} (hp : s.phase = .pending)
    (hs : (∃ r rest, s.schedule = .submit r :: rest) ∨ ∃ rest, s.schedule = .read :: rest)
    (h : step s = .next t) :
    (t.reqOp = s.reqOp ∧ t.reqIn = s.reqIn) ∧ t.schedule = s.schedule ∧ t.reads = s.reads := by
  rw [step, takeTurn_pending hp (.inr hs)] at h
  exact (perform_frame h).2

/-- Settles O25. -/
theorem submitWritesTheRequestOrHolds : Obligations.SubmitWritesTheRequestOrHolds := by
  intro s r op es rest hs hr
  have hreq : requestOp r = op ∧ requestIn r = es := by
    obtain ⟨i, rfl, hi⟩ | ⟨rfl, rfl⟩ := hr
    · simp [requestOp, requestIn, hi]
    · exact ⟨rfl, rfl⟩
  obtain ⟨rfl, rfl⟩ := hreq
  refine ⟨fun hp => step_submit hp hs, fun hp t ht => ?_⟩
  obtain ⟨⟨hop, hin⟩, hsched, -⟩ := held_turn_frame hp (.inl ⟨r, rest, hs⟩) ht
  exact ⟨hsched, hop, hin⟩

/-- Settles O26. -/
theorem readReturnsTheResponseOrHoldsOrFaults : Obligations.ReadReturnsTheResponseOrHoldsOrFaults := by
  intro s rest hs
  refine ⟨fun status out hp hstatus hout => step_read_done hp hs hstatus hout, fun hp => step_read_idle hp hs,
    fun hp t ht => ?_⟩
  exact (held_turn_frame hp (.inr ⟨rest, hs⟩) ht).2

/-- In phase Idle, turns without a submit leave phase Idle, so the read behind them faults (R36). -/
theorem steps_idle_until_read (turns rest : List Turn) (s : State) (hp : s.phase = .idle)
    (hsubmit : ∀ r, Turn.submit r ∉ turns) (hread : Turn.read ∉ turns) (hs : s.schedule = turns ++ .read :: rest) :
    steps (turns.length + 1) s = .fault .readBeforeResponse := by
  induction turns generalizing s with
  | nil => simp [steps, step_read_idle hp hs]
  | cons turn turns ih =>
    have hsubmit' : ∀ r, Turn.submit r ∉ turns := fun r hr => hsubmit r (.tail _ hr)
    have hread' : Turn.read ∉ turns := fun hr => hread (.tail _ hr)
    rw [List.length_cons]
    cases turn with
    | submit r => exact absurd (.head _) (hsubmit r)
    | read => exact absurd (.head _) hread
    | reset => rw [steps_succ (step_reset hs)]; exact ih _ rfl hsubmit' hread' rfl
    | codec => rw [steps_succ (step_codec_idle hp hs)]; exact ih _ hp hsubmit' hread' rfl
    | wait => rw [steps_succ (step_wait hs)]; exact ih _ hp hsubmit' hread' rfl

/-- In a coherent block outside phase Pending, a read faults exactly where a response register is without a value. -/
theorem read_faults_iff_absent {s : State} (h : s.Coherent) (hp : s.phase ≠ .pending) {rest : List Turn}
    (hs : s.schedule = .read :: rest) :
    step s = .fault .readBeforeResponse ↔ s.rspStatus = none ∨ s.rspOut = none := by
  cases hphase : s.phase with
  | pending => exact absurd hphase hp
  | idle =>
    obtain ⟨-, -, hstatus, -, -⟩ := h.idle hphase
    simp [step_read_idle hphase hs, hstatus]
  | done =>
    obtain ⟨i, -, -, hstatus, -, hout⟩ := h.done hphase
    simp [step_read_done hphase hs hstatus hout, hstatus, hout]

/-- A coherent pending block holds both request registers. -/
theorem request_isSome_of_pending {s : State} (h : s.Coherent) (hp : s.phase = .pending) :
    s.reqOp.isSome = true ∧ s.reqIn.isSome = true := by
  obtain ⟨i, hop, hin⟩ | ⟨hop, es, hin⟩ := (h.pending hp).1 <;> simp [hop, hin]

/-- A coherent pending block answers every step. -/
theorem step_answers_of_pending {s : State} (h : s.Coherent) (hp : s.phase = .pending) : ∃ t, step s = .next t := by
  obtain ⟨rest, -, ht⟩ | ⟨rest, -, ht⟩ | ⟨ts, ht⟩ := step_of_pending hp
  · exact ⟨_, ht⟩
  · exact ⟨_, ht⟩
  · obtain ⟨t, hperform, -⟩ := (h.withSchedule ts).perform_answers hp
    exact ⟨t, ht.trans hperform⟩

/-- Settles O27. -/
theorem absentRegistersFault : Obligations.AbsentRegistersFault := by
  intro s
  refine ⟨fun turns rest hsubmit hread hs => ?_, fun h hp rest hs => read_faults_iff_absent h hp hs, fun h hp => ?_⟩
  · rw [steps_succ (step_reset hs)]
    exact steps_idle_until_read turns rest _ rfl hsubmit hread rfl
  · obtain ⟨hop, hin⟩ := request_isSome_of_pending h hp
    exact ⟨hop, hin, step_answers_of_pending h hp⟩

/-! ### The ROMs (R27, R62) -/

theorem readRlut_rlutOf (rom : AlphaRom) (c : CharCode) : readRlut (rlutOf rom) c = entryFrom c 0 rom.toList := by
  simp [readRlut, rlutOf]

theorem entryFrom_of_not_mem {c : CharCode} {codes : List CharCode} (h : c ∉ codes) (i : Nat) :
    entryFrom c i codes = ⟨false, 0⟩ := by
  induction codes generalizing i with
  | nil => rfl
  | cons a codes ih =>
    simp only [List.mem_cons, not_or] at h
    rw [entryFrom, if_neg (Ne.symm h.1), ih h.2]

/-- Where a code stands once, its entry is valid with its index. -/
theorem entryFrom_of_nodup {codes : List CharCode} (hnodup : codes.Nodup) (i k : Nat) (hk : k < codes.length) :
    entryFrom codes[k] i codes = ⟨true, BitVec.ofNat 6 (i + k)⟩ := by
  induction codes generalizing i k with
  | nil => cases hk
  | cons a codes ih =>
    obtain ⟨hne, hnodup⟩ := List.nodup_cons.1 hnodup
    cases k with
    | zero => simp [entryFrom]
    | succ k =>
      have hk' : k < codes.length := by simpa using hk
      have ha : a ≠ codes[k] := fun h => hne (h ▸ List.getElem_mem hk')
      rw [List.getElem_cons_succ, entryFrom, if_neg ha, ih hnodup (i + 1) k hk', Nat.add_right_comm, Nat.add_assoc]

theorem readAlpha_eq_getElem (rom : AlphaRom) (x : Sextet) :
    readAlpha rom x = rom.toList[x.toNat]'(by simpa using x.isLt) := by
  simp [readAlpha]

theorem exists_readAlpha_of_mem {rom : AlphaRom} {c : CharCode} (h : c ∈ rom.toList) : ∃ x, readAlpha rom x = c := by
  obtain ⟨k, hk, rfl⟩ := List.getElem_of_mem h
  have hlt : k < 2 ^ 6 := by simpa using hk
  exact ⟨BitVec.ofNatLT k hlt, by simp [readAlpha]⟩

/-- An alphabet of distinct codes has no repeated entry. -/
theorem toList_nodup {rom : AlphaRom} (h : ∀ x y : Sextet, readAlpha rom x = readAlpha rom y → x = y) :
    rom.toList.Nodup := by
  rw [List.nodup_iff_injective_get]
  intro ⟨j, hj⟩ ⟨k, hk⟩ heq
  have hj' : j < 2 ^ 6 := by simpa using hj
  have hk' : k < 2 ^ 6 := by simpa using hk
  have := h (BitVec.ofNatLT j hj') (BitVec.ofNatLT k hk') (by simpa [readAlpha] using heq)
  simpa using congrArg BitVec.toNat this

/-- Settles O42: the search finds a code at its only index, or runs through the table. -/
theorem reverseLookupInvertsAnyAlphabet : Obligations.ReverseLookupInvertsAnyAlphabet := by
  intro rom hdistinct
  refine ⟨fun x => ?_, fun c hc => ?_⟩
  · rw [readRlut_rlutOf, readAlpha_eq_getElem, entryFrom_of_nodup (toList_nodup hdistinct)]
    simp
  · have hmem : c ∉ rom.toList := fun h => (exists_readAlpha_of_mem h).elim hc
    rw [readRlut_rlutOf, entryFrom_of_not_mem hmem]

theorem alphabet_distinct : ∀ x y : Sextet, readAlpha alphabet x = readAlpha alphabet y → x = y := by
  decide +kernel

/-- Settles O43: the inverse is O42's at the reset alphabet; the count runs over the 256 entries. -/
theorem resetRomsAreInverse : Obligations.ResetRomsAreInverse :=
  ⟨(reverseLookupInvertsAnyAlphabet alphabet alphabet_distinct).1, by decide +kernel⟩

end Sys2Proof.Machine

/-! SUPPORT. The statements of spec 20_memory.md: where VLQ_ENCODE places the bits of an integer, what reads leave, the
submit-perform-read sequence, and the growth of the observation. -/

namespace Sys2Proof.Machine

open Sys2Proof

/-! ### The placement of VLQ_ENCODE (R40, R71, R72, R73) -/

/-- VLQ_ENCODE of one integer is answered with its VLQ. -/
theorem exec_vlqEncode_singleton {v : IntWord} {s : State} (h : s.WithinBounds 1 (vlqEncode v).length) :
    exec (.vlqEncode [v]) s = .next (s.answered (.vlqEncode [v]) ⟨0#2, none, (vlqEncode v).map .sextet⟩) := by
  have hresponse : responseTo s (.vlqEncode [v]) = ⟨0#2, none, (vlqEncode v).map .sextet⟩ := by
    simp [responseTo, vlqEncodeResponse, okResponse]
  exact exec_of_response hresponse rfl (by simpa [encode] using h)

theorem headPayload_vlqEncode (v : IntWord) (h : 0 < (vlqEncode v).length) :
    (headPayload (vlqEncode v)[0]).toNat = intMagnitude v % 2 ^ 4 := by
  simp [vlqEncode, (head_fields _ _ _).2.2, magnitudeOf_toNat]

/-- Tail `k` carries the bits of the magnitude from position `4 + 5 (k - 1)` on. -/
theorem tailPayload_vlqEncode (v : IntWord) (k : Nat) (h : k < (vlqEncode v).length) (hk : 1 ≤ k) :
    (tailPayload (vlqEncode v)[k]).toNat = intMagnitude v / 2 ^ (5 * k - 1) % 2 ^ 5 := by
  cases k with
  | zero => omega
  | succ j =>
    have hj : j < (encodeTails maxTails (magnitudeOf v >>> 4)).length := by simpa [vlqEncode] using h
    have hpos : 2 ^ (5 * (j + 1) - 1) = 16 * 2 ^ (5 * j) := by
      rw [show 5 * (j + 1) - 1 = 4 + 5 * j by omega, pow_add]; norm_num
    calc (tailPayload (vlqEncode v)[j + 1]).toNat
        = intMagnitude v / 16 / 2 ^ (5 * j) % 32 := by
          rw [← magnitudeOf_toNat, ← shift_four]
          exact encodeTails_payload maxTails j _ hj
      _ = intMagnitude v / 2 ^ (5 * (j + 1) - 1) % 2 ^ 5 := by
          rw [hpos, Nat.div_div_eq_div_mul]; norm_num

/-- Settles O8, field by field of the VLQ. -/
theorem vlqEncodePlacesSignMagnitudeAndFlags : Obligations.VlqEncodePlacesSignMagnitudeAndFlags := by
  intro v s _ hbounds
  have hlen := vlqEncode_length v
  refine ⟨vlqEncode v, exec_vlqEncode_singleton (hlen ▸ hbounds), hlen, (vlqEncode_invariant v).2, fun h => ?_,
    tailPayload_vlqEncode v⟩
  exact ⟨sign_vlqEncode v h, headPayload_vlqEncode v h⟩

/-! ### Reads (R36, R46, R49) -/

/-- Settles O28, by induction on the number of reads: each appends the same response and writes no register. -/
theorem repeatedReadsReturnTheSame : Obligations.RepeatedReadsReturnTheSame := by
  intro n
  induction n with
  | zero =>
    rintro s _ status out - - - rfl
    simp [steps]
  | succ n ih =>
    intro s rest status out hp hstatus hout hs
    have hread : step s = .next ((s.withSchedule (List.replicate n .read ++ rest)).recordRead
        ⟨status, s.rspErrPos, out⟩) := step_read_done hp hs hstatus hout
    rw [steps_succ hread, ih _ rest status out]
    · rw [List.replicate_succ, List.append_cons]
      rfl
    · exact hp
    · exact hstatus
    · exact hout
    · rfl

/-- A read turn in phase Pending leaves the codec to answer the admitted request held there (R36, R37). -/
theorem step_read_pending_admitted {s : State} {i : Instr} {rest : List Turn} (hp : s.phase = .pending)
    (hs : s.schedule = .read :: rest) (hi : s.HoldsRequest i) (hr : ¬ s.Refused i) :
    step s = .next (s.answered i (responseTo s i)) := by
  rw [step, takeTurn_pending hp (.inr (.inr ⟨rest, hs⟩)), perform_of_holdsRequest hi, exec_answered hr]

/-- A pending admitted request is answered and read in two steps: the perform step in place of the held read, then the
read (R36, R37). -/
theorem steps_read_pending_admitted {s : State} {i : Instr} {rest : List Turn} (hp : s.phase = .pending)
    (hs : s.schedule = .read :: rest) (hi : s.HoldsRequest i) (hr : ¬ s.Refused i) :
    steps 2 s = .next (((s.answered i (responseTo s i)).withSchedule rest).recordRead (responseTo s i)) := by
  have hread : step (s.answered i (responseTo s i)) =
      .next (((s.answered i (responseTo s i)).withSchedule rest).recordRead (responseTo s i)) :=
    step_read_done rfl hs rfl rfl
  rw [steps_succ (step_read_pending_admitted hp hs hi hr), steps_succ hread, steps]

/-- Settles O30: after the submit the block is pending with `i` held, and `F` of `i` is as before it. -/
theorem submitThenReadReturnsTheResponse : Obligations.SubmitThenReadReturnsTheResponse := by
  intro s i rest hp hr hs
  have hF : responseTo ((s.withSchedule (.read :: rest)).submit (.operation i)) i = responseTo s i :=
    responseTo_congr rfl rfl i
  have hr' : ¬ ((s.withSchedule (.read :: rest)).submit (.operation i)).Refused i :=
    mt (refused_congr rfl rfl rfl i).1 hr
  rw [steps_succ (step_submit hp hs), steps_read_pending_admitted rfl rfl ⟨rfl, rfl⟩ hr', hF]
  exact ⟨_, rfl, rfl, rfl, ⟨rfl, rfl⟩, rfl, rfl⟩

/-! ### The observation (R49, R127) -/

/-- A perform step marks the request refused, or answers the admitted request the registers hold (R37). -/
theorem perform_next_holdsRequest {s t : State} (h : perform s = .next t) :
    t = s.markRefused ∨ ∃ i, s.HoldsRequest i ∧ ¬ s.Refused i ∧ t = s.answered i (responseTo s i) := by
  obtain rfl | ⟨op, es, i, hop, hin, hd, hr, rfl⟩ := perform_next h
  · exact .inl rfl
  · have henc : encode i = (op, es) := encode_of_decode hd
    exact .inr ⟨i, ⟨by rw [hop, henc], by rw [hin, henc]⟩, hr, rfl⟩

/-- Settles O36: every step but an answering perform step leaves the observation. -/
theorem theObservationGrowsByPerformedRequests : Obligations.TheObservationGrowsByPerformedRequests := by
  intro s t h
  obtain ⟨u, hp, hu, h⟩ | ⟨rfl, -⟩ | ⟨_, -, rfl⟩ | ⟨_, -, rfl⟩ | ⟨_, _, -, -, rfl⟩ | ⟨_, _, -, -, rfl⟩ := step_next h
  · obtain ⟨ts, rfl⟩ : ∃ ts, u = s.withSchedule ts := by
      obtain rfl | ⟨rest, -, rfl⟩ := hu
      · exact ⟨u.schedule, rfl⟩
      · exact ⟨rest, rfl⟩
    obtain rfl | ⟨i, hi, -, rfl⟩ := perform_next_holdsRequest h
    · exact .inl rfl
    · have hF : responseTo (s.withSchedule ts) i = responseTo s i := responseTo_congr rfl rfl i
      rw [hF]
      exact .inr ⟨i, hp, hi, rfl, ⟨rfl, rfl, rfl⟩, rfl⟩
  all_goals exact .inl rfl

end Sys2Proof.Machine

/-! SUPPORT. The statements of spec 30_encoding.md: the decoder and the encoder of the opcode table, the alphabet, the
framed stream of SPLIT, the canonical form of VLQ_ENCODE's output, and the text that is no canonical form. -/

namespace Sys2Proof.Machine

open Sys2Proof

/-! ### The opcode table (R54, R66) -/

/-- A pair decodes to the one instruction whose encoding it is. -/
theorem decode_ok_iff {op : OpCode} {es : List Element} {i : Instr} : decode op es = .ok i ↔ encode i = (op, es) := by
  refine ⟨encode_of_decode, fun h => ?_⟩
  simpa [h] using decode_encode i

/-- Settles O1. -/
theorem decodeAndEncodeAgree : Obligations.DecodeAndEncodeAgree :=
  ⟨decode_encode, fun _ _ _ => encode_of_decode⟩

/-- An instruction's operand has the input type of its code, row by row. -/
theorem operand_typed (i : Instr) : ∃ t, inputType (encode i).1 = some t ∧ ∀ e ∈ (encode i).2, e.type = t := by
  cases i with
  | encode xs => exact Laws.OperandTyped.encode xs
  | decode cs => exact Laws.OperandTyped.decode cs
  | vlqEncode xs => exact Laws.OperandTyped.vlqEncode xs
  | vlqDecode ss => exact Laws.OperandTyped.vlqDecode ss
  | base64Encode ss => exact Laws.OperandTyped.base64Encode ss
  | base64Decode cs => exact Laws.OperandTyped.base64Decode cs
  | split ss => exact Laws.OperandTyped.split ss

theorem exists_int_of_type {e : Element} (h : e.type = .int) : ∃ v, .int v = e := by
  cases e with
  | int v => exact ⟨v, rfl⟩
  | _ => cases h

theorem exists_char_of_type {e : Element} (h : e.type = .char) : ∃ c, .char c = e := by
  cases e with
  | char c => exact ⟨c, rfl⟩
  | _ => cases h

theorem exists_sextet_of_type {e : Element} (h : e.type = .sextet) : ∃ x, .sextet x = e := by
  cases e with
  | sextet x => exact ⟨x, rfl⟩
  | _ => cases h

/-- A list of one row's input type is the operand of an instruction of that row. -/
theorem encode_of_typed_row {α : Type} {mk : List α → Instr} {g : α → Element} {t : ElemType} {k op : OpCode}
    {es : List Element} (hmk : ∀ xs, encode (mk xs) = (k, xs.map g))
    (hg : ∀ {e : Element}, e.type = t → ∃ x, g x = e) (hop : op.toNat = k.toNat) (hes : ∀ e ∈ es, e.type = t) :
    ∃ i, encode i = (op, es) := by
  have hrange : es ∈ Set.range (List.map g) := by
    rw [Set.range_list_map]
    exact fun e he => hg (hes e he)
  obtain ⟨xs, rfl⟩ := hrange
  exact ⟨mk xs, by rw [hmk, BitVec.eq_of_toNat_eq hop]⟩

/-- A list of the code's input type is the operand of an instruction. -/
theorem exists_encode_of_typed {op : OpCode} {es : List Element} {t : ElemType} (ht : inputType op = some t)
    (hes : ∀ e ∈ es, e.type = t) : ∃ i, encode i = (op, es) := by
  unfold inputType at ht
  split at ht <;> cases ht
  case h_1 h => exact encode_of_typed_row (mk := .encode) (k := 0#3) (fun _ => rfl) exists_int_of_type h hes
  case h_2 h => exact encode_of_typed_row (mk := .decode) (k := 1#3) (fun _ => rfl) exists_char_of_type h hes
  case h_3 h => exact encode_of_typed_row (mk := .vlqEncode) (k := 2#3) (fun _ => rfl) exists_int_of_type h hes
  case h_4 h => exact encode_of_typed_row (mk := .vlqDecode) (k := 3#3) (fun _ => rfl) exists_sextet_of_type h hes
  case h_5 h => exact encode_of_typed_row (mk := .base64Encode) (k := 4#3) (fun _ => rfl) exists_sextet_of_type h hes
  case h_6 h => exact encode_of_typed_row (mk := .base64Decode) (k := 5#3) (fun _ => rfl) exists_char_of_type h hes
  case h_7 h => exact encode_of_typed_row (mk := .split) (k := 6#3) (fun _ => rfl) exists_sextet_of_type h hes

theorem onTyped_ne_reservedOp {α : Type} (mk : List α → Instr) (o : Option (List α)) :
    onTyped mk o ≠ .error .reservedOp := by
  cases o <;> simp [onTyped]

/-- Code 7, and no other, is rejected as reserved (R66). -/
theorem decode_reservedOp_iff (op : OpCode) (es : List Element) : decode op es = .error .reservedOp ↔ op = 7#3 := by
  constructor
  · intro h
    unfold decode at h
    split at h
    case h_8 =>
      simp only [imp_false] at *
      bv_omega
    all_goals exact absurd h (onTyped_ne_reservedOp _ _)
  · rintro rfl
    rfl

/-- Settles O2: the accepted pairs are the encodings, and the encodings are the typed pairs. -/
theorem decodeAcceptsExactlyTypedLists : Obligations.DecodeAcceptsExactlyTypedLists := by
  intro op es
  refine ⟨?_, decode_reservedOp_iff op es⟩
  simp only [decode_ok_iff]
  constructor
  · rintro ⟨i, hi⟩
    simpa [hi] using operand_typed i
  · rintro ⟨t, ht, hes⟩
    exact exists_encode_of_typed ht hes

/-- Settles O3: each row's pair is the encoding of its instruction. -/
theorem codesSelectTheirOperations : Obligations.CodesSelectTheirOperations :=
  ⟨decode_encode (.encode [_]), decode_encode (.decode [_]), decode_encode (.vlqEncode [_]),
    decode_encode (.vlqDecode [_]), decode_encode (.base64Encode [_]), decode_encode (.base64Decode [_]),
    decode_encode (.split [_]), (decode_reservedOp_iff _ _).2 rfl⟩

/-! ### The alphabet (R61) -/

/-- Settles O41, by evaluating the 64 entries of the fixed table. -/
theorem alphabetRomHoldsTheTable : Obligations.AlphabetRomHoldsTheTable := by
  unfold Obligations.AlphabetRomHoldsTheTable
  decide

/-! ### The framed stream (R63, R82) -/

/-- SPLIT of a terminated stream delivers every sextet with `LAST = ~sextet[5]`. -/
theorem splitResponse_of_clear_end {ss : List Sextet} (h : ∀ hne : ss ≠ [], contFlag (ss.getLast hne) = false) :
    splitResponse ss = okResponse (ss.map fun x => .framed (frameElement (!contFlag x) x)) := by
  obtain ⟨chunks, rfl, hchunks⟩ := stream_of_clear_end ss h
  simp only [splitResponse, frame_chunks hchunks, serialise_chunks hchunks, List.map_map, Function.comp_def]

/-- Settles O12. -/
theorem splitFramesATerminatedStream : Obligations.SplitFramesATerminatedStream := by
  intro ss s _ hbounds hlast
  exact exec_of_response (splitResponse_of_clear_end hlast) rfl (by simpa [encode, okResponse] using hbounds)

/-! ### The canonical form (R58, R59, R74) -/

theorem encodedLength_le_seven (m : Nat) : encodedLength m ≤ 7 := by
  unfold encodedLength
  split_ifs <;> omega

/-- `n(M)` sextets have room for `M`: 4 bits in the head and 5 in each tail (R59 (a)). -/
theorem lt_two_pow_encodedLength {m : Nat} (hm : m ≤ 2 ^ 31) : m < 2 ^ (5 * encodedLength m - 1) := by
  unfold encodedLength
  split_ifs <;> norm_num <;> omega

/-- One sextet fewer has no room for `M`. -/
theorem two_pow_le_of_one_lt_encodedLength {m : Nat} (h : 1 < encodedLength m) :
    2 ^ (5 * (encodedLength m - 1) - 1) ≤ m := by
  revert h
  unfold encodedLength
  split_ifs <;> norm_num <;> omega

theorem intMagnitude_pos_of_neg {v : IntWord} (h : v.toInt < 0) : 0 < intMagnitude v := by
  unfold intMagnitude
  omega

theorem intMagnitude_lt_of_nonneg {v : IntWord} (h : 0 ≤ v.toInt) : intMagnitude v < 2 ^ 31 := by
  have := BitVec.toInt_lt (x := v)
  unfold intMagnitude
  omega

/-- The last payload of a longer VLQ is what the groups before it leave of the magnitude. -/
theorem lastPayload_vlqEncode (v : IntWord) (hne : vlqEncode v ≠ []) (hlong : 1 < (vlqEncode v).length) :
    (tailPayload ((vlqEncode v).getLast hne)).toNat =
      intMagnitude v / 2 ^ (5 * ((vlqEncode v).length - 1) - 1) := by
  have hlt := lt_two_pow_encodedLength (intMagnitude_le v)
  rw [← vlqEncode_length] at hlt
  rw [List.getLast_eq_getElem, tailPayload_vlqEncode v _ _ (by omega), Nat.mod_eq_of_lt]
  rw [Nat.div_lt_iff_lt_mul (Nat.two_pow_pos _), ← pow_add]
  convert hlt using 2
  omega

theorem lastPayload_ne_zero (v : IntWord) (hne : vlqEncode v ≠ []) (hlong : 1 < (vlqEncode v).length) :
    tailPayload ((vlqEncode v).getLast hne) ≠ 0 := by
  have hge := two_pow_le_of_one_lt_encodedLength (vlqEncode_length v ▸ hlong)
  rw [← vlqEncode_length] at hge
  have hpos : 0 < (tailPayload ((vlqEncode v).getLast hne)).toNat := by
    rw [lastPayload_vlqEncode v hne hlong]
    exact Nat.div_pos hge (Nat.two_pow_pos _)
  intro hzero
  simp [hzero] at hpos

/-- At seven sextets the last payload is the magnitude's bits from 29 on. -/
theorem lastPayload_of_seven (v : IntWord) (hne : vlqEncode v ≠ []) (hseven : (vlqEncode v).length = 7) :
    (tailPayload ((vlqEncode v).getLast hne)).toNat = intMagnitude v / 2 ^ 29 := by
  rw [lastPayload_vlqEncode v hne (by omega), hseven]

/-- Settles O44, clause by clause at the encoder's own output. -/
theorem vlqEncodeIsCanonical : Obligations.VlqEncodeIsCanonical := by
  intro v s _ hbounds
  have hlen := vlqEncode_length v
  have hle := intMagnitude_le v
  refine ⟨vlqEncode v, exec_vlqEncode_singleton (hlen ▸ hbounds), vlqEncode_invariant v,
    by rw [mfull_vlqEncode, hlen], hlen ▸ encodedLength_le_seven _, fun h hsign => ?_,
    lastPayload_ne_zero v, fun hne h0 hseven => ?_⟩
  · rw [mfull_vlqEncode]
    exact intMagnitude_pos_of_neg (by simpa [sign_vlqEncode v h] using hsign)
  · rw [lastPayload_of_seven v hne hseven, sign_vlqEncode v h0]
    refine ⟨by omega, fun hsign => ?_⟩
    have hlt := intMagnitude_lt_of_nonneg (v := v) (by simpa using hsign)
    omega

/-! ### A text that is no canonical form (R60, R99) -/

/-- DECODE of valid characters whose sextets are complete VLQs delivers the decoded VLQs. -/
theorem decodeResponse_of_chunks {rom : RlutRom} {cs : List CharCode} {chunks : List (List Sextet)}
    (hvalid : ∀ c ∈ cs, (readRlut rom c).valid = true)
    (hcs : (cs.map fun c => (readRlut rom c).index) = chunks.flatten) (hchunks : ∀ v ∈ chunks, VlqInvariant v) :
    decodeResponse rom cs = okResponse (chunks.map fun v => .int (vlqDecode v)) := by
  simp only [decodeResponse, decodeText, b64Unmap_valid hvalid, hcs, frame_chunks hchunks, List.map_map,
    Function.comp_def]

theorem vlqInvariant_singleton {x : Sextet} (h : contFlag x = false) : VlqInvariant [x] :=
  (vlqInvariant_iff _).2 ⟨[], x, rfl, by simp, h⟩

/-- `B` carries the sextet 1: a head with the sign flag and a zero payload. -/
theorem readRlut_B : readRlut (rlutOf alphabet) 0x42 = ⟨true, 1⟩ :=
  resetRomsAreInverse.1 1

/-- The negative zero decodes to 0. -/
theorem decodeResponse_B : decodeResponse (rlutOf alphabet) [0x42] = ⟨0#2, none, [.int 0]⟩ := by
  have hvalid : ∀ c ∈ [0x42], (readRlut (rlutOf alphabet) c).valid = true := by
    rw [List.forall_mem_singleton, readRlut_B]
  have hsextets : ([0x42].map fun c => (readRlut (rlutOf alphabet) c).index) = [[1]].flatten := by
    rw [List.map_singleton, readRlut_B]
    rfl
  have hvlq : ∀ v ∈ [[1]], VlqInvariant v := List.forall_mem_singleton.2 (vlqInvariant_singleton rfl)
  have hvalue : vlqDecode [1] = 0 := by decide
  rw [decodeResponse_of_chunks hvalid hsextets hvlq, List.map_singleton, hvalue, okResponse]

/-- 0 encodes to the sextet 0, which `A` stands for. -/
theorem encodeResponse_zero : encodeResponse alphabet [0] = ⟨0#2, none, [.char 0x41]⟩ := by
  have hvlq : vlqEncode 0 = [0] := by decide
  have hread : readAlpha alphabet 0 = 0x41 := by decide
  rw [encodeResponse, List.flatMap_singleton, hvlq, b64Map_eq_map, List.map_singleton, hread, List.map_singleton,
    okResponse]

/-- Settles O55. -/
theorem nonCanonicalTextIsNotRestored : Obligations.NonCanonicalTextIsNotRestored := by
  intro s _ ⟨halpha, hrlut⟩ hbounds
  have hdecode : responseTo s (.decode [0x42]) = ⟨0#2, none, [.int 0]⟩ := by
    rw [responseTo, hrlut, decodeResponse_B]
  have hencode : responseTo s (.encode [0]) = ⟨0#2, none, [.char 0x41]⟩ := by
    rw [responseTo, halpha, encodeResponse_zero]
  exact ⟨exec_of_response hdecode rfl hbounds, exec_of_response hencode rfl hbounds⟩

end Sys2Proof.Machine

/-! SUPPORT. The statements of spec 41_base64_map.md: what B64_ENCODE and B64_DECODE answer, and their round trips. -/

namespace Sys2Proof.Machine

open Sys2Proof

/-! ### The two operations (R77, R78, R79) -/

/-- B64_ENCODE is answered with the mapped sextets. -/
theorem exec_base64Encode {ss : List Sextet} {s : State} (h : s.WithinBounds ss.length ss.length) :
    exec (.base64Encode ss) s =
      .next (s.answered (.base64Encode ss) ⟨0#2, none, (ss.map (readAlpha s.alpha)).map .char⟩) := by
  have hresponse : responseTo s (.base64Encode ss) = ⟨0#2, none, (ss.map (readAlpha s.alpha)).map .char⟩ := by
    rw [responseTo, base64EncodeResponse, b64Map_eq_map, okResponse]
  exact exec_of_response hresponse rfl (by simpa [encode] using h)

/-- B64_DECODE of alphabet characters is answered with their indices. -/
theorem exec_base64Decode_valid {cs : List CharCode} {s : State} (h : s.WithinBounds cs.length cs.length)
    (hvalid : ∀ c ∈ cs, (readRlut s.rlut c).valid = true) :
    exec (.base64Decode cs) s = .next (s.answered (.base64Decode cs)
      ⟨0#2, none, (cs.map fun c => (readRlut s.rlut c).index).map .sextet⟩) := by
  have hresponse : responseTo s (.base64Decode cs) =
      ⟨0#2, none, (cs.map fun c => (readRlut s.rlut c).index).map .sextet⟩ := by
    simp only [responseTo, base64DecodeResponse, b64Unmap_valid hvalid, okResponse]
  exact exec_of_response hresponse rfl (by simpa [encode] using h)

/-- Settles O10: entry by entry of the mapped list. -/
theorem base64EncodeMapsEverySextet : Obligations.Base64EncodeMapsEverySextet := by
  intro ss s _ hbounds
  rw [exec_base64Encode hbounds, List.map_map]
  rfl

/-- Settles O11: entry by entry of the unmapped list. -/
theorem base64DecodeUnmapsAlphabetText : Obligations.Base64DecodeUnmapsAlphabetText := by
  intro cs s _ hbounds hvalid
  rw [exec_base64Decode_valid hbounds hvalid, List.map_map]
  rfl

/-- Settles O13: the mapper stops at the first invalid character, and raising its error delivers no output. -/
theorem base64DecodeReportsTheFirstInvalidCharacter : Obligations.Base64DecodeReportsTheFirstInvalidCharacter := by
  intro good rest c s _ hbounds hgood hc
  have hresponse : responseTo s (.base64Decode (good ++ c :: rest)) = ⟨1#2, some good.length, []⟩ := by
    simp only [responseTo, base64DecodeResponse, b64Unmap_invalid rest hgood hc, raise, errorCode, errorPos]
  exact exec_of_response hresponse rfl (by simpa [encode, Nat.add_assoc] using hbounds)

/-! ### The round trips (R80) -/

/-- Settles O50: each character `ALPHA[x]` is valid in `RLUT`, with the index `x`. -/
theorem base64DecodeInvertsBase64Encode : Obligations.Base64DecodeInvertsBase64Encode := by
  intro ss s u _ _ halpha hinverse hs hu
  have hvalid : ∀ c ∈ ss.map (readAlpha u.alpha), (readRlut u.rlut c).valid = true :=
    List.forall_mem_map.2 fun x _ => by rw [hinverse x]
  have hindices : ((ss.map (readAlpha u.alpha)).map fun c => (readRlut u.rlut c).index) = ss := by
    rw [List.map_map]
    exact (List.map_congr_left fun x _ => congrArg RlutEntry.index (hinverse x)).trans (List.map_id ss)
  refine ⟨ss.map (readAlpha u.alpha), halpha ▸ exec_base64Encode hs, ?_⟩
  rw [exec_base64Decode_valid (by simpa using hu) hvalid, hindices]

/-- A code found valid stands in the table at the index of its entry, also where codes repeat. -/
theorem exists_getElem_of_entryFrom_valid {c : CharCode} {codes : List CharCode} {i : Nat}
    (h : (entryFrom c i codes).valid = true) :
    ∃ (k : Nat) (hk : k < codes.length), codes[k] = c ∧ (entryFrom c i codes).index = BitVec.ofNat 6 (i + k) := by
  induction codes generalizing i with
  | nil => cases h
  | cons a codes ih =>
    by_cases ha : a = c
    · exact ⟨0, by simp, ha, by simp [entryFrom, ha]⟩
    · rw [entryFrom, if_neg ha] at h ⊢
      obtain ⟨k, hk, hcode, hindex⟩ := ih h
      exact ⟨k + 1, by simpa using hk, hcode, by rw [hindex, Nat.add_right_comm, Nat.add_assoc]⟩

/-- `ALPHA` at the index of a valid entry of its reverse lookup is the looked-up character. -/
theorem readAlpha_index_of_valid {rom : AlphaRom} {c : CharCode} (h : (readRlut (rlutOf rom) c).valid = true) :
    readAlpha rom (readRlut (rlutOf rom) c).index = c := by
  rw [readRlut_rlutOf] at h ⊢
  obtain ⟨k, hk, rfl, hindex⟩ := exists_getElem_of_entryFrom_valid h
  have hlt : k < 64 := by simpa using hk
  rw [hindex, readAlpha_eq_getElem]
  simp [Nat.mod_eq_of_lt hlt]

/-- Settles O51: `ALPHA` at the index of each character is the character again. -/
theorem base64EncodeInvertsBase64Decode : Obligations.Base64EncodeInvertsBase64Decode := by
  intro cs s u _ _ hrlut hvalid hs hu
  have hchars : (cs.map fun c => (readRlut s.rlut c).index).map (readAlpha u.alpha) = cs := by
    rw [List.map_map, hrlut]
    exact (List.map_congr_left fun c hc => readAlpha_index_of_valid (hrlut ▸ hvalid c hc)).trans (List.map_id cs)
  refine ⟨cs.map fun c => (readRlut s.rlut c).index, exec_base64Decode_valid hs hvalid, ?_⟩
  rw [exec_base64Encode (by simpa using hu), hchars]

end Sys2Proof.Machine

/-! SUPPORT. The statements of spec 42_framer.md: what SPLIT answers on complete VLQs, with and without an unclosed tail
behind them, and how many sextets end a chunk. -/

namespace Sys2Proof.Machine

open Sys2Proof

/-! ### The responses of SPLIT (R82, R83) -/

/-- SPLIT of complete VLQs delivers their serialisation. -/
theorem splitResponse_chunks {chunks : List (List Sextet)} (hchunks : ∀ c ∈ chunks, VlqInvariant c) :
    splitResponse chunks.flatten = ⟨0#2, none, (serialise chunks).map .framed⟩ := by
  simp only [splitResponse, frame_chunks hchunks, okResponse]

/-- SPLIT of complete VLQs and an unclosed tail reports the first sextet of the tail, and delivers nothing (R105). -/
theorem splitResponse_unterminated {chunks : List (List Sextet)} {tail : List Sextet}
    (hchunks : ∀ c ∈ chunks, VlqInvariant c) (hne : tail ≠ []) (htail : ∀ x ∈ tail, contFlag x = true) :
    splitResponse (chunks.flatten ++ tail) = ⟨2#2, some chunks.flatten.length, []⟩ := by
  simp only [splitResponse, frame_unterminated hchunks hne htail, raise, errorCode, errorPos]

/-- A stream that SPLIT answers with OK is complete VLQs without a tail. -/
theorem exists_chunks_of_splitResponse_ok {ss : List Sextet} (h : (splitResponse ss).status = 0#2) :
    ∃ chunks : List (List Sextet), ss = chunks.flatten ∧ ∀ c ∈ chunks, VlqInvariant c := by
  obtain ⟨chunks, tail, rfl, hchunks, htail⟩ := stream_cases ss
  by_cases hne : tail = []
  · exact ⟨chunks, by rw [hne, List.append_nil], hchunks⟩
  · rw [splitResponse_unterminated hchunks hne htail] at h
    exact absurd h (show ¬ 2#2 = 0#2 by decide)

/-- Settles O14: the sextets before the tail are complete VLQs. -/
theorem splitReportsTheUnclosedTail : Obligations.SplitReportsTheUnclosedTail := by
  intro closed tail s _ hbounds hclosed hne htail
  obtain ⟨chunks, rfl, hchunks⟩ := stream_of_clear_end closed hclosed
  exact exec_of_response (splitResponse_unterminated hchunks hne htail) rfl
    (by simpa only [encode, List.length_map, List.length_append, List.length_nil] using hbounds)

/-! ### The chunks partition the stream (R85) -/

/-- The last sextet of a VLQ is its only one with a clear flag (R58). -/
theorem filter_clear_length_of_vlqInvariant {c : List Sextet} (hc : VlqInvariant c) :
    (c.filter fun x => !contFlag x).length = 1 := by
  obtain ⟨body, last, rfl, hbody, hlast⟩ := (vlqInvariant_iff c).1 hc
  have hnone : (body.filter fun x => !contFlag x) = [] :=
    List.filter_eq_nil_iff.2 fun x hx => by simp [hbody x hx]
  simp [hnone, hlast]

/-- There are as many complete VLQs as clear flags in their stream (R85 (d)). -/
theorem filter_clear_length_flatten {chunks : List (List Sextet)} (hchunks : ∀ c ∈ chunks, VlqInvariant c) :
    (chunks.flatten.filter fun x => !contFlag x).length = chunks.length := by
  induction chunks with
  | nil => rfl
  | cons c chunks ih =>
    obtain ⟨hc, hchunks⟩ := List.forall_mem_cons.1 hchunks
    rw [List.flatten_cons, List.filter_append, List.length_append, filter_clear_length_of_vlqInvariant hc, ih hchunks,
      List.length_cons, Nat.add_comm]

/-- A pending request whose execution ends in phase Done is answered, not refused (R37). -/
theorem eq_answered_of_exec_done {i : Instr} {s t : State} (hp : s.phase = .pending) (h : exec i s = .next t)
    (hdone : t.phase = .done) : t = s.answered i (responseTo s i) := by
  obtain ⟨-, he⟩ | ⟨-, he⟩ := exec_cases i s <;> rw [he] at h <;> cases h
  · exact nomatch hp.symm.trans hdone
  · rfl

/-- Settles O48: the chunks are the complete VLQs that the OK status shows the stream to be. -/
theorem chunksPartitionTheStream : Obligations.ChunksPartitionTheStream := by
  intro ss s t out hp h hstatus hdone hout
  obtain rfl := eq_answered_of_exec_done hp h hdone
  obtain ⟨chunks, rfl, hchunks⟩ := exists_chunks_of_splitResponse_ok (Option.some.inj hstatus)
  refine ⟨chunks, rfl, hchunks, (filter_clear_length_flatten hchunks).symm, ?_⟩
  rw [State.answered_rspOut, responseTo, splitResponse_chunks hchunks] at hout
  exact (Option.some.inj hout).symm

/-! ### Framing undoes concatenation (R85 (f)) -/

/-- The serialisation of complete VLQs has one element per sextet. -/
theorem serialise_length {chunks : List (List Sextet)} (hchunks : ∀ c ∈ chunks, VlqInvariant c) :
    (serialise chunks).length = chunks.flatten.length := by
  rw [serialise_chunks hchunks, List.length_map]

/-- Settles O49: every encoded integer is a complete VLQ. -/
theorem splitRecoversTheEncodedVlqs : Obligations.SplitRecoversTheEncodedVlqs := by
  intro xs s _ hbounds
  have hchunks : ∀ c ∈ xs.map vlqEncode, VlqInvariant c := List.forall_mem_map.2 fun v _ => vlqEncode_invariant v
  rw [List.flatMap_def] at hbounds ⊢
  exact exec_of_response (splitResponse_chunks hchunks) rfl
    (by simpa only [encode, List.length_map, serialise_length hchunks] using hbounds)

end Sys2Proof.Machine

/-! SUPPORT. The statements of spec 43_vlq_decode.md: what VLQ_DECODE answers, which bits it reads, and the forward
datapath. -/

namespace Sys2Proof.Machine

open Sys2Proof

/-! ### The operation (R87, R89, R91) -/

/-- VLQ_DECODE of a non-empty list is answered with one integer. -/
theorem exec_vlqDecode {ss : List Sextet} {s : State} (hne : ss ≠ []) (h : s.WithinBounds ss.length 1) :
    exec (.vlqDecode ss) s = .next (s.answered (.vlqDecode ss) ⟨0#2, none, [.int (vlqDecode ss)]⟩) :=
  exec_of_response rfl (by simpa [Instr.wf] using hne) (by simpa [encode] using h)

/-- Settles O9: the accumulator is the exact magnitude modulo 2^32. -/
theorem vlqDecodeWrapsTheExactMagnitude : Obligations.VlqDecodeWrapsTheExactMagnitude := by
  intro head tails s _ hbounds
  rw [exec_vlqDecode (List.cons_ne_nil head tails) hbounds, vlqDecode_eq]
  rfl

/-- Settles O45: an encoded integer is at most seven sextets, and its decoding is the integer. -/
theorem vlqDecodeInvertsVlqEncode : Obligations.VlqDecodeInvertsVlqEncode := by
  intro v s u _ _ hs hu
  have hlen : (vlqEncode v).length ≤ 7 := vlqEncode_length v ▸ encodedLength_le_seven _
  have hdecode := exec_vlqDecode (vlqEncode_invariant v).1 (withinBounds_mono hu hlen le_rfl)
  rw [vlqDecode_vlqEncode] at hdecode
  exact ⟨vlqEncode v, exec_vlqEncode_singleton (withinBounds_mono hs le_rfl hlen), hdecode⟩

/-! ### The bits VLQ_DECODE reads (R90) -/

/-- The payload of a head is bits 4:1 of its bits 4:0. -/
theorem headPayload_eq_extract (x : Sextet) : headPayload x = (tailPayload x).extractLsb' 1 4 := by
  revert x
  decide

/-- The sign flag of a head is bit 0 of its bits 4:0. -/
theorem signFlag_eq_getLsbD (x : Sextet) : signFlag x = (tailPayload x).getLsbD 0 := by
  simp [signFlag, tailPayload]

theorem tailAccumulator_congr {xs ys : List Sextet} (h : xs.map tailPayload = ys.map tailPayload) :
    tailAccumulator xs = tailAccumulator ys := by
  induction xs generalizing ys with
  | nil => rw [List.map_eq_nil_iff.1 h.symm]
  | cons x xs ih =>
    obtain ⟨y, ys, rfl, hy, hys⟩ := List.map_eq_cons_iff.1 h.symm
    rw [tailAccumulator, tailAccumulator, ih hys.symm, hy]

/-- VLQ_DECODE depends on bits 4:0 of the sextets only. -/
theorem vlqDecode_congr {v w : List Sextet} (h : v.map tailPayload = w.map tailPayload) :
    vlqDecode v = vlqDecode w := by
  cases v with
  | nil => rw [List.map_eq_nil_iff.1 h.symm]
  | cons x xs =>
    obtain ⟨y, ys, rfl, hy, hys⟩ := List.map_eq_cons_iff.1 h.symm
    simp only [vlqDecode, headAccumulator, headPayload_eq_extract, signFlag_eq_getLsbD, hy,
      tailAccumulator_congr hys.symm]

/-- Settles O46: the second list is non-empty and within the bounds because the first one is. -/
theorem vlqDecodeIgnoresContinuationFlags : Obligations.VlqDecodeIgnoresContinuationFlags := by
  intro v w s _ hne hbounds h
  have hlen : v.length = w.length := by simpa using congrArg List.length h
  have hw : w ≠ [] := List.ne_nil_of_length_pos (hlen ▸ List.length_pos_of_ne_nil hne)
  have hdecode := exec_vlqDecode hw (hlen ▸ hbounds)
  rw [← vlqDecode_congr h] at hdecode
  exact ⟨vlqDecode v, exec_vlqDecode hne hbounds, hdecode⟩

/-! ### The forward datapath (R92) -/

/-- A payload shifted in 32 bits is its weighted value modulo 2^32: the bits dropped are those at position 32 and above. -/
theorem payload_shiftLeft (p : BitVec 5) (n : Nat) : p.setWidth 32 <<< n = BitVec.ofNat 32 (p.toNat * 2 ^ n) :=
  BitVec.eq_of_toNat_eq (by simp [BitVec.toNat_shiftLeft, Nat.shiftLeft_eq])

/-- The forward walk adds the exact tail terms modulo 2^32. -/
theorem forwardTails_eq (acc : IntWord) (k : Nat) (xs : List Sextet) :
    forwardTails acc k xs = acc + BitVec.ofNat 32 (tailSum k xs) := by
  induction xs generalizing acc k with
  | nil => simp [forwardTails, tailSum]
  | cons x xs ih => rw [forwardTails, ih, payload_shiftLeft, tailSum, BitVec.ofNat_add, BitVec.add_assoc]

/-- Both walks end with `Mfull mod 2^32` (R88, R92). -/
theorem forwardTails_head (head : Sextet) (tails : List Sextet) :
    forwardTails ((headPayload head).setWidth 32) 1 tails = headAccumulator head tails := by
  rw [forwardTails_eq, headAccumulator_eq, mfull, BitVec.ofNat_add, payload_setWidth]

theorem forwardDecode_eq (v : List Sextet) : forwardDecode v = vlqDecode v := by
  cases v with
  | nil => rfl
  | cons head tails => simp only [forwardDecode, vlqDecode, forwardTails_head, neg32, zero_sub]

/-- Settles O47: forward and reverse walk give the same integer. -/
theorem forwardDatapathGivesTheSame : Obligations.ForwardDatapathGivesTheSame := by
  intro v s _ hne hbounds
  rw [forwardDecode_eq]
  exact exec_vlqDecode hne hbounds

end Sys2Proof.Machine

/-! SUPPORT. The statements of spec 44_top_level.md: what ENCODE and DECODE answer, their round trips, and both as
compositions of the lower operations. -/

namespace Sys2Proof.Machine

open Sys2Proof

/-! ### ENCODE (R95) -/

/-- ENCODE is answered with the characters of the concatenated VLQs. -/
theorem exec_encode {xs : List IntWord} {s : State} (h : s.WithinBounds xs.length (xs.flatMap vlqEncode).length) :
    exec (.encode xs) s = .next (s.answered (.encode xs)
      ⟨0#2, none, ((xs.flatMap vlqEncode).map (readAlpha s.alpha)).map .char⟩) := by
  have hresponse : responseTo s (.encode xs) =
      ⟨0#2, none, ((xs.flatMap vlqEncode).map (readAlpha s.alpha)).map .char⟩ := by
    rw [responseTo, encodeResponse, b64Map_eq_map, okResponse]
  exact exec_of_response hresponse rfl (by simpa only [encode, List.length_map] using h)

/-- The concatenated VLQs have `n(|x|)` sextets for each integer `x` (R59 (a)). -/
theorem flatMap_vlqEncode_length (xs : List IntWord) :
    (xs.flatMap vlqEncode).length = (xs.map fun x => encodedLength (intMagnitude x)).sum := by
  simp only [List.length_flatMap, vlqEncode_length]

/-- Every VLQ has at least one sextet. -/
theorem length_le_flatMap_vlqEncode (xs : List IntWord) : xs.length ≤ (xs.flatMap vlqEncode).length := by
  have hpos : ∀ n ∈ xs.map fun x => (vlqEncode x).length, 1 ≤ n :=
    List.forall_mem_map.2 fun x _ => List.length_pos_of_ne_nil (vlqEncode_invariant x).1
  simpa [List.length_flatMap] using List.length_le_sum_of_one_le _ hpos

/-- No VLQ has more than seven sextets. -/
theorem flatMap_vlqEncode_length_le (xs : List IntWord) : (xs.flatMap vlqEncode).length ≤ 7 * xs.length := by
  have hseven : ∀ n ∈ xs.map fun x => (vlqEncode x).length, n ≤ 7 :=
    List.forall_mem_map.2 fun x _ => vlqEncode_length x ▸ encodedLength_le_seven _
  simpa [List.length_flatMap, Nat.mul_comm] using List.sum_le_card_nsmul _ 7 hseven

/-- Settles O6: the map of the concatenation is the concatenation of the maps. -/
theorem encodeConcatenatesTheCharacterRuns : Obligations.EncodeConcatenatesTheCharacterRuns := by
  intro xs s _ hbounds
  have hruns : (xs.flatMap fun x => (vlqEncode x).map fun y => Element.char (readAlpha s.alpha y)) =
      ((xs.flatMap vlqEncode).map (readAlpha s.alpha)).map .char := by
    rw [List.map_map, List.map_flatMap]
    rfl
  rw [← flatMap_vlqEncode_length] at hbounds ⊢
  rw [hruns]
  exact ⟨exec_encode hbounds, by simp only [List.length_map], length_le_flatMap_vlqEncode xs,
    flatMap_vlqEncode_length_le xs⟩

/-! ### DECODE of alphabet characters (R96, R103) -/

/-- DECODE of valid characters whose sextets are complete VLQs is answered with the decoded VLQs. -/
theorem exec_decode_chunks {cs : List CharCode} {chunks : List (List Sextet)} {s : State}
    (h : s.WithinBounds cs.length chunks.length) (hvalid : ∀ c ∈ cs, (readRlut s.rlut c).valid = true)
    (hcs : (cs.map fun c => (readRlut s.rlut c).index) = chunks.flatten) (hchunks : ∀ v ∈ chunks, VlqInvariant v) :
    exec (.decode cs) s =
      .next (s.answered (.decode cs) ⟨0#2, none, chunks.map fun v => .int (vlqDecode v)⟩) :=
  exec_of_response (decodeResponse_of_chunks hvalid hcs hchunks) rfl
    (by simpa only [encode, okResponse, List.length_map] using h)

/-- Settles O7: each VLQ decodes to R89's value. -/
theorem decodeYieldsOneIntegerPerVlq : Obligations.DecodeYieldsOneIntegerPerVlq := by
  intro cs chunks s _ hvalid hcs hchunks hbounds
  simp only [← vlqDecode_eq]
  exact exec_decode_chunks hbounds hvalid hcs hchunks

/-- DECODE answers with SPLIT's error on the unmapped sextets. -/
theorem decodeResponse_of_split_error {rom : RlutRom} {cs : List CharCode} {ss : List Sextet}
    {code : StatusCode} {p : Nat} (hunmap : b64Unmap rom cs = .ok ss) (hsplit : splitResponse ss = ⟨code, some p, []⟩) :
    decodeResponse rom cs = ⟨code, some p, []⟩ := by
  cases hframe : frame ss with
  | ok chunks =>
    rw [splitResponse, hframe] at hsplit
    exact nomatch congrArg Response.errPos hsplit
  | error e => simp only [← hsplit, splitResponse, decodeResponse, decodeText, hunmap, hframe]

/-- Settles O16: the closed characters carry complete VLQs, so SPLIT reports the tail's first sextet. -/
theorem decodeReportsTheUnclosedVlq : Obligations.DecodeReportsTheUnclosedVlq := by
  intro closed tail s _ hbounds hvalid hclosed hne htail
  obtain ⟨chunks, hflatten, hchunks⟩ :=
    stream_of_clear_end (closed.map fun c => (readRlut s.rlut c).index)
      (fun hne' => by simpa only [List.getLast_map] using hclosed (by simpa using hne'))
  have hunmap := b64Unmap_valid hvalid
  rw [List.map_append] at hunmap
  have hsplit := splitResponse_unterminated hchunks
    (tail := tail.map fun c => (readRlut s.rlut c).index) (by simpa using hne) (List.forall_mem_map.2 htail)
  rw [← hflatten, List.length_map] at hsplit
  exact exec_of_response (decodeResponse_of_split_error hunmap hsplit) rfl
    (by simpa only [encode, List.length_map, List.length_append, List.length_nil] using hbounds)

/-! ### The round trips (R99) -/

/-- A character of `ALPHA` is valid under an inverse coding (R27). -/
theorem State.RomsInverse.valid_map_readAlpha {s : State} (h : s.RomsInverse) (ss : List Sextet) :
    ∀ c ∈ ss.map (readAlpha s.alpha), (readRlut s.rlut c).valid = true :=
  List.forall_mem_map.2 fun x _ => by rw [h x]

/-- The indices of the characters of sextets are the sextets, under an inverse coding (R27). -/
theorem State.RomsInverse.map_index_map_readAlpha {s : State} (h : s.RomsInverse) (ss : List Sextet) :
    ((ss.map (readAlpha s.alpha)).map fun c => (readRlut s.rlut c).index) = ss := by
  rw [List.map_map]
  exact (List.map_congr_left fun x _ => congrArg RlutEntry.index (h x)).trans (List.map_id ss)

/-- Settles O54: the text carries the VLQs of the integers, and each VLQ decodes to its integer. -/
theorem decodeInvertsEncode : Obligations.DecodeInvertsEncode := by
  intro xs s u _ _ halpha hinverse hs hu
  have hle := flatMap_vlqEncode_length_le xs
  have hchunks : ∀ v ∈ xs.map vlqEncode, VlqInvariant v := List.forall_mem_map.2 fun x _ => vlqEncode_invariant x
  have hdecode := exec_decode_chunks (cs := (xs.flatMap vlqEncode).map (readAlpha u.alpha))
    (withinBounds_mono hu (by simpa only [List.length_map] using hle) (by rw [List.length_map]))
    (hinverse.valid_map_readAlpha _) (by rw [hinverse.map_index_map_readAlpha, List.flatMap_def]) hchunks
  simp only [List.map_map, Function.comp_def, vlqDecode_vlqEncode] at hdecode
  refine ⟨(xs.flatMap vlqEncode).map (readAlpha u.alpha), halpha ▸ exec_encode (withinBounds_mono hs le_rfl hle),
    hdecode, ?_, ?_⟩
  · simpa only [List.length_map] using length_le_flatMap_vlqEncode xs
  · simpa only [List.length_map] using hle

/-! ### The compositions (R97, R98) -/

/-- A pending request that is answered with `r` has the response `r` (R34). -/
theorem responseTo_of_exec_answered {i : Instr} {s : State} {r : Response} (hp : s.phase = .pending)
    (h : exec i s = .next (s.answered i r)) : responseTo s i = r := by
  have heq : s.observation ++ [(i, r)] = s.observation ++ [(i, responseTo s i)] :=
    congrArg State.observation (eq_answered_of_exec_done hp h rfl)
  simpa using heq.symm

/-- The response of a request that every pending state within the bounds answers with `r`, read in a state in which the
request was submitted after reset. -/
theorem responseTo_of_answered_in_every_state {i : Instr} {r : Response} {nIn nOut : Nat}
    (h : ∀ w : State, w.phase = .pending → w.WithinBounds nIn nOut → exec i w = .next (w.answered i r)) :
    responseTo (State.reset.submit (.operation i)) i = r :=
  responseTo_of_exec_answered rfl (h _ rfl ⟨nofun, nofun⟩)

theorem map_eq_of_forall₂ {α β : Type} {f : α → β} {xs : List α} {ys : List β}
    (h : List.Forall₂ (fun x y => f x = y) xs ys) : xs.map f = ys :=
  List.forall₂_eq_eq_eq ▸ List.forall₂_map_left_iff.2 h

theorem map_sextet_injective : Function.Injective (List.map Element.sextet) :=
  List.map_injective_iff.2 fun _ _ h => Element.sextet.inj h

/-- Settles O52: the outputs of VLQ_ENCODE are the VLQs that ENCODE maps. -/
theorem encodeComposesTheLowerOperations : Obligations.EncodeComposesTheLowerOperations := by
  intro xs vs s u _ _ halpha hs hu hvlqs
  have hvs : xs.map vlqEncode = vs := map_eq_of_forall₂ (hvlqs.imp fun x v hx => by
    have hout := congrArg Response.out (responseTo_of_answered_in_every_state hx)
    simpa [responseTo, vlqEncodeResponse, okResponse] using map_sextet_injective hout)
  have hflatten : xs.flatMap vlqEncode = vs.flatten := by rw [List.flatMap_def, hvs]
  refine ⟨(vs.flatten.map (readAlpha u.alpha)).map .char, exec_base64Encode hu, ?_⟩
  rw [← hflatten] at hs ⊢
  rw [← halpha]
  exact exec_encode hs

/-- DECODE answers with B64_DECODE's error. -/
theorem decodeResponse_of_unmap_error {rom : RlutRom} {cs : List CharCode} {code : StatusCode} {p : Nat}
    (h : base64DecodeResponse rom cs = ⟨code, some p, []⟩) : decodeResponse rom cs = ⟨code, some p, []⟩ := by
  cases hunmap : b64Unmap rom cs with
  | ok ss =>
    rw [base64DecodeResponse, hunmap] at h
    exact nomatch congrArg Response.errPos h
  | error e => simp only [← h, base64DecodeResponse, decodeResponse, decodeText, hunmap]

/-- The sextets B64_DECODE delivers are those DECODE frames. -/
theorem b64Unmap_of_base64DecodeResponse_ok {rom : RlutRom} {cs : List CharCode} {ss : List Sextet}
    (h : base64DecodeResponse rom cs = ⟨0#2, none, ss.map .sextet⟩) : b64Unmap rom cs = .ok ss := by
  cases hunmap : b64Unmap rom cs with
  | ok xs =>
    rw [base64DecodeResponse, hunmap] at h
    rw [map_sextet_injective (congrArg Response.out h)]
  | error e =>
    rw [base64DecodeResponse, hunmap] at h
    exact nomatch congrArg Response.errPos h

/-- Bits 5:0 of a framed element are its sextet (R63). -/
theorem setWidth_frameElement (last : Bool) (x : Sextet) : (frameElement last x).setWidth 6 = x := by
  rw [frameElement, BitVec.setWidth_append, dif_pos le_rfl, BitVec.setWidth_eq]

/-- The framed elements of complete VLQs determine their sextets. -/
theorem flatten_eq_of_serialise_eq {chunks chunks' : List (List Sextet)} (hchunks : ∀ c ∈ chunks, VlqInvariant c)
    (hchunks' : ∀ c ∈ chunks', VlqInvariant c) (h : serialise chunks = serialise chunks') :
    chunks.flatten = chunks'.flatten := by
  rw [serialise_chunks hchunks, serialise_chunks hchunks'] at h
  simpa [Function.comp_def, setWidth_frameElement] using congrArg (List.map (BitVec.setWidth 6)) h

/-- The chunks SPLIT delivers are those DECODE decodes. -/
theorem frame_of_splitResponse_ok {ss : List Sextet} {chunks : List (List Sextet)}
    (hchunks : ∀ c ∈ chunks, VlqInvariant c)
    (h : splitResponse ss = ⟨0#2, none, (serialise chunks).map .framed⟩) : frame ss = .ok chunks := by
  obtain ⟨chunks', rfl, hchunks'⟩ := exists_chunks_of_splitResponse_ok (congrArg Response.status h)
  rw [splitResponse_chunks hchunks'] at h
  have hframed : serialise chunks' = serialise chunks :=
    List.map_injective_iff.2 (fun _ _ he => Element.framed.inj he) (congrArg Response.out h)
  rw [flatten_eq_of_serialise_eq hchunks' hchunks hframed, frame_chunks hchunks]

/-- Settles O53: each answer of a lower operation fixes what its unit computes, and DECODE chains the units. -/
theorem decodeComposesTheLowerOperations : Obligations.DecodeComposesTheLowerOperations := by
  intro cs s u _ hu hrlut
  have hdecode : responseTo s (.decode cs) = decodeResponse u.rlut cs := by rw [responseTo, hrlut]
  refine ⟨fun p hunmap hs => ?_, fun ss hunmap => ⟨fun p hsplit hs => ?_, fun chunks xs hsplit hchunks hxs hs => ?_⟩⟩
  · have hresponse := decodeResponse_of_unmap_error (responseTo_of_exec_answered hu hunmap)
    exact exec_of_response (hdecode.trans hresponse) rfl (by simpa [encode] using hs)
  · have hsextets := b64Unmap_of_base64DecodeResponse_ok (responseTo_of_exec_answered hu hunmap)
    have hresponse := decodeResponse_of_split_error hsextets (responseTo_of_exec_answered hu hsplit)
    exact exec_of_response (hdecode.trans hresponse) rfl (by simpa [encode] using hs)
  · have hsextets := b64Unmap_of_base64DecodeResponse_ok (responseTo_of_exec_answered hu hunmap)
    have hframe := frame_of_splitResponse_ok hchunks (responseTo_of_exec_answered hu hsplit)
    have hints : chunks.map vlqDecode = xs := map_eq_of_forall₂ (hxs.imp fun c x hc => by
      have hout := congrArg Response.out (responseTo_of_answered_in_every_state hc)
      simpa [responseTo, vlqDecodeResponse, okResponse] using hout)
    have hresponse : decodeResponse u.rlut cs = ⟨0#2, none, xs.map .int⟩ := by
      simp only [decodeResponse, decodeText, hsextets, hframe, hints, okResponse]
    exact exec_of_response (hdecode.trans hresponse) rfl (by simpa [encode] using hs)

end Sys2Proof.Machine

/-! SUPPORT. The statements of spec 60_exceptions.md: the errors a perform step can end in, what it leaves unchanged, and the
stops of the machine. -/

namespace Sys2Proof.Machine

open Sys2Proof

/-! ### The error of each unit (R79, R83, R96) -/

/-- The mapper answers, or reports the index of one of the text's characters (R79, R103). -/
theorem b64Unmap_cases (rom : RlutRom) (cs : List CharCode) :
    (∃ ss, ss.length = cs.length ∧ b64Unmap rom cs = .ok ss) ∨
      ∃ p < cs.length, b64Unmap rom cs = .error (.invalidCharacter p) := by
  obtain hvalid | ⟨good, c, rest, rfl, hgood, hc⟩ := text_cases rom cs
  · exact .inl ⟨_, List.length_map _, b64Unmap_valid hvalid⟩
  · exact .inr ⟨good.length, by simp, b64Unmap_invalid rest hgood hc⟩

/-- The framer answers, or reports the index of one of the stream's sextets (R83, R103). -/
theorem frame_cases (ss : List Sextet) :
    (∃ chunks, frame ss = .ok chunks) ∨ ∃ p < ss.length, frame ss = .error (.unterminatedVlq p) := by
  obtain ⟨chunks, tail, rfl, hchunks, htail⟩ := stream_cases ss
  by_cases hne : tail = []
  · subst hne
    exact .inl ⟨chunks, by rw [List.append_nil, frame_chunks hchunks]⟩
  · have hpos := List.length_pos_of_ne_nil hne
    exact .inr ⟨chunks.flatten.length, by rw [List.length_append]; omega, frame_unterminated hchunks hne htail⟩

/-- DECODE ends with the mapper's error (R96). -/
theorem decodeResponse_of_b64Unmap_error {rom : RlutRom} {cs : List CharCode} {e : CodecError}
    (h : b64Unmap rom cs = .error e) : decodeResponse rom cs = raise e := by
  simp only [decodeResponse, decodeText, h]

/-- Settles O15: the mapper runs before the framer, so its error ends the request. -/
theorem decodeReportsInvalidCharacterFirst : Obligations.DecodeReportsInvalidCharacterFirst := by
  intro good rest c s _ hbounds hgood hc
  exact exec_of_response (decodeResponse_of_b64Unmap_error (b64Unmap_invalid rest hgood hc)) rfl
    (by simpa [encode, raise, Nat.add_assoc] using hbounds)

/-! ### The responses by status (R101, R103, R105) -/

/-- The response to `i` is OK, or an error of one of the two kinds, raised by an operation that has it, at an index of the
input and without output. -/
theorem responseTo_cases (s : State) (i : Instr) :
    (∃ out, responseTo s i = ⟨0#2, none, out⟩) ∨
    (∃ p < (encode i).2.length, (∃ cs, i = .base64Decode cs ∨ i = .decode cs) ∧
      responseTo s i = ⟨1#2, some p, []⟩) ∨
    (∃ p < (encode i).2.length, ((∃ ss, i = .split ss) ∨ ∃ cs, i = .decode cs) ∧
      responseTo s i = ⟨2#2, some p, []⟩) := by
  cases i with
  | encode xs => exact .inl ⟨_, rfl⟩
  | vlqEncode xs => exact .inl ⟨_, rfl⟩
  | vlqDecode ss => exact .inl ⟨_, rfl⟩
  | base64Encode ss => exact .inl ⟨_, rfl⟩
  | base64Decode cs =>
    simp only [responseTo, base64DecodeResponse, encode, List.length_map]
    obtain ⟨ss, -, h⟩ | ⟨p, hp, h⟩ := b64Unmap_cases s.rlut cs <;> rw [h]
    · exact .inl ⟨_, rfl⟩
    · exact .inr (.inl ⟨p, hp, ⟨cs, .inl rfl⟩, rfl⟩)
  | split ss =>
    simp only [responseTo, splitResponse, encode, List.length_map]
    obtain ⟨chunks, h⟩ | ⟨p, hp, h⟩ := frame_cases ss <;> rw [h]
    · exact .inl ⟨_, rfl⟩
    · exact .inr (.inr ⟨p, hp, .inl ⟨ss, rfl⟩, rfl⟩)
  | decode cs =>
    simp only [responseTo, encode, List.length_map]
    obtain ⟨ss, hlen, hunmap⟩ | ⟨p, hp, hunmap⟩ := b64Unmap_cases s.rlut cs
    · simp only [decodeResponse, decodeText, hunmap]
      obtain ⟨chunks, h⟩ | ⟨p, hp, h⟩ := frame_cases ss <;> rw [h]
      · exact .inl ⟨_, rfl⟩
      · exact .inr (.inr ⟨p, hlen ▸ hp, .inr ⟨cs, rfl⟩, rfl⟩)
    · rw [decodeResponse_of_b64Unmap_error hunmap]
      exact .inr (.inl ⟨p, hp, ⟨cs, .inr rfl⟩, rfl⟩)

/-- Settles O17. -/
theorem anErrorDeliversNoOutput : Obligations.AnErrorDeliversNoOutput := by
  intro i s t hp h hdone hne
  obtain rfl := eq_answered_of_exec_done hp h hdone
  obtain ⟨out, hr⟩ | ⟨p, hlt, -, hr⟩ | ⟨p, hlt, -, hr⟩ := responseTo_cases s i <;> rw [hr] at hne ⊢
  · exact absurd rfl hne
  · exact ⟨rfl, p, rfl, hlt⟩
  · exact ⟨rfl, p, rfl, hlt⟩

/-- Settles O18. -/
theorem eachErrorHasItsRaisers : Obligations.EachErrorHasItsRaisers := by
  intro i s t hp h hdone
  obtain rfl := eq_answered_of_exec_done hp h hdone
  obtain ⟨out, hr⟩ | ⟨p, -, hraiser, hr⟩ | ⟨p, -, hraiser, hr⟩ := responseTo_cases s i <;> rw [hr]
  · exact .inl ⟨rfl, rfl⟩
  · exact .inr (.inl ⟨rfl, hraiser⟩)
  · exact .inr (.inr ⟨rfl, hraiser⟩)

/-! ### The frame of a perform step (R28, R108) -/

/-- Settles O20: a refused request leaves phase Pending with the mark set, an answered one writes the response registers. -/
theorem performLeavesTheRestUnchanged : Obligations.PerformLeavesTheRestUnchanged := by
  intro i s t hp h
  obtain ⟨-, he⟩ | ⟨-, he⟩ := exec_cases i s <;> rw [he] at h <;> cases h
  · have hnotDone : s.markRefused.phase ≠ .done := by simp [hp]
    exact ⟨rfl, rfl, rfl, rfl, rfl, rfl, rfl, fun hdone => absurd hdone hnotDone, fun _ => rfl⟩
  · exact ⟨rfl, rfl, rfl, rfl, rfl, rfl, rfl, fun _ => rfl, fun hne => absurd rfl hne⟩

/-! ### Steps outside phase Pending (R36, R107, R117) -/

/-- With no request pending the codec holds its state (R117). -/
theorem codecTurn_of_not_pending {s : State} (hp : s.phase ≠ .pending) : codecTurn s = .next s := by
  cases h : s.phase with
  | pending => exact absurd h hp
  | idle => simp [codecTurn, h]
  | done => simp [codecTurn, h]

theorem step_nil {s : State} (hp : s.phase ≠ .pending) (hs : s.schedule = []) : step s = .next s := by
  simp only [step, takeTurn, hs, codecTurn_of_not_pending hp]

theorem step_codec {s : State} {rest : List Turn} (hp : s.phase ≠ .pending) (hs : s.schedule = .codec :: rest) :
    step s = .next (s.withSchedule rest) := by
  simp only [step, takeTurn, hs]
  exact codecTurn_of_not_pending (s := s.withSchedule rest) hp

/-- Settles O29. -/
theorem theBlockHoldsItsStateBetweenRequests : Obligations.TheBlockHoldsItsStateBetweenRequests :=
  fun _ hp => ⟨step_nil hp, fun _ hs => step_codec hp hs, fun _ hs => step_wait hs⟩

/-- A coherent block in phase Done answers a read, since its response registers hold a response (R32, R36). -/
theorem step_read_answers_of_done {s : State} (h : s.Coherent) (hp : s.phase = .done) {rest : List Turn}
    (hs : s.schedule = .read :: rest) : ∃ t, step s = .next t := by
  obtain ⟨i, -, -, hstatus, -, hout⟩ := h.done hp
  exact ⟨_, step_read_done hp hs hstatus hout⟩

/-- Settles O37: a perform step always answers, and outside phase Pending so does every turn but a read in phase Idle. -/
theorem onlyAnEarlyReadStopsTheMachine : Obligations.OnlyAnEarlyReadStopsTheMachine := by
  intro s h
  by_cases hp : s.phase = .pending
  · exact .inl (step_answers_of_pending h hp)
  · match hs : s.schedule with
    | [] => exact .inl ⟨_, step_nil hp hs⟩
    | .codec :: rest => exact .inl ⟨_, step_codec hp hs⟩
    | .wait :: rest => exact .inl ⟨_, step_wait hs⟩
    | .reset :: rest => exact .inl ⟨_, step_reset hs⟩
    | .submit r :: rest => exact .inl ⟨_, step_submit hp hs⟩
    | .read :: rest =>
      cases hphase : s.phase with
      | pending => exact absurd hphase hp
      | idle => exact .inr ⟨step_read_idle hphase hs, rfl, rest, rfl⟩
      | done => exact .inl (step_read_answers_of_done h hphase hs)

end Sys2Proof.Machine

/-! SUPPORT. The statements of spec 70_reset_and_hazards.md: what reset leaves, the reset event, and the ended run. -/

namespace Sys2Proof.Machine

open Sys2Proof

/-! ### The ended run (R127) -/

/-- Using up the head of its schedule leaves an ended run ended. -/
theorem State.RunEnded.withSchedule_tail {s : State} (h : s.RunEnded) {turn : Turn} {rest : List Turn}
    (hs : s.schedule = turn :: rest) : (s.withSchedule rest).RunEnded := by
  obtain ⟨hphase, hmark, hsubmit⟩ := h
  exact ⟨hphase, hmark, fun r hr => hsubmit r (hs ▸ .tail turn hr)⟩

/-- The reset event leaves phase Idle and a clear mark, so it ends any run whose host submits nothing more (R119). -/
theorem State.runEnded_resetBlock {s : State} (h : ∀ r, Turn.submit r ∉ s.schedule) : s.resetBlock.RunEnded :=
  ⟨nofun, rfl, h⟩

/-- Settles O32: with no request pending nothing is performed, and no submit turn is left to make one pending. -/
theorem anEndedRunObservesNothingMore : Obligations.AnEndedRunObservesNothingMore := by
  intro s t h ht
  have ⟨hphase, _, hsubmit⟩ := h
  obtain ⟨_, hp, -, -⟩ | ⟨rfl, -⟩ | ⟨rest, hs, rfl⟩ | ⟨rest, hs, rfl⟩ | ⟨r, rest, hs, -, -⟩ |
    ⟨r, rest, hs, -, rfl⟩ := step_next ht
  · exact absurd hp hphase
  · exact ⟨h, rfl⟩
  · obtain hs | hs := hs <;> exact ⟨h.withSchedule_tail hs, rfl⟩
  · obtain ⟨-, -, hrest⟩ := h.withSchedule_tail hs
    exact ⟨State.runEnded_resetBlock hrest, rfl⟩
  · exact absurd (hs ▸ .head rest) (hsubmit r)
  · exact ⟨h.withSchedule_tail hs, rfl⟩

/-! ### Reset (R118, R119, R120) -/

/-- Settles O23: the registers by the definition of the reset state, the fault by R36's read in phase Idle. -/
theorem resetLeavesIdleAndNoValues : Obligations.ResetLeavesIdleAndNoValues :=
  ⟨rfl, rfl, rfl, rfl, rfl, rfl, rfl, ⟨rfl, rfl⟩, fun _ => step_read_idle rfl rfl⟩

/-- Settles O24. -/
theorem resetEventDiscardsThePendingRequest : Obligations.ResetEventDiscardsThePendingRequest :=
  fun _ _ hs => step_reset hs

end Sys2Proof.Machine
